-- ==== Sys2Proof/Word.lean ====
section
/-! DEFINITION. The word types of BITOPS and the two command widths (00_scope.md R5, R6; 30_encoding.md R72). Bit 0 is the least significant bit everywhere. -/

namespace Sys2Proof

/-- A byte of BUF or of a bus request. -/
abbrev Byte := BitVec 8

/-- An operand word: OPW, OPV and DEV are 16 bits wide (R25, R26, R27). -/
abbrev Half := BitVec 16

/-- A host register as the host sees it, and a command word (R21, R70). -/
abbrev Word := BitVec 32

/-- The width of a command, chosen by CMD.W (R72). -/
inductive Width where
  | w8
  | w16
deriving DecidableEq, Repr

/-- `w` of the rules: 8 or 16. -/
def Width.bits : Width → Nat
  | .w8 => 8
  | .w16 => 16

/-- `w / 8` of the rules: how many bytes a word of this width takes on the bus (R57). -/
def Width.bytes : Width → Nat
  | .w8 => 1
  | .w16 => 2

end Sys2Proof
end

