-- ==== Sys2Proof/Syntax.lean ====
section
/-! DEFINITION. The commands of BITOPS: one constructor per row of spec/opcode_table.json (30_encoding.md R78), with the operand fields R85 gives the row and no others (R81). -/

namespace Sys2Proof

/-- A command. `p` and `bs` are CMD.BS, `len` is CMD.LEN, `reg` is CMD.REG; `d` (doSet, bit value) and `stop` are CMD.F. -/
inductive Instr where
  | getbit8 (p : BitVec 4)
  | getbit16 (p : BitVec 4)
  | setbit8 (d : Bool) (p : BitVec 4)
  | setbit16 (d : Bool) (p : BitVec 4)
  | getbits8 (bs : BitVec 4) (len : BitVec 5)
  | getbits16 (bs : BitVec 4) (len : BitVec 5)
  | setbits8 (bs : BitVec 4) (len : BitVec 5)
  | setbits16 (bs : BitVec 4) (len : BitVec 5)
  | rdreg8 (reg : Byte)
  | rdreg16 (reg : Byte)
  | rdregs (reg : Byte)
  | wrreg8 (reg : Byte)
  | wrreg16 (reg : Byte)
  | wrregs (reg : Byte)
  | rdregbit8 (reg : Byte) (p : BitVec 4)
  | rdregbit16 (reg : Byte) (p : BitVec 4)
  | rdregbf8 (reg : Byte) (bs : BitVec 4) (len : BitVec 5)
  | rdregbf16 (reg : Byte) (bs : BitVec 4) (len : BitVec 5)
  | rdbits8 (bs : BitVec 4) (len : BitVec 5) (stop : Bool)
  | rdbits16 (bs : BitVec 4) (len : BitVec 5) (stop : Bool)
  | wrregbit8 (reg : Byte) (p : BitVec 4) (d : Bool)
  | wrregbit16 (reg : Byte) (p : BitVec 4) (d : Bool)
  | wrregbf8 (reg : Byte) (bs : BitVec 4) (len : BitVec 5)
  | wrregbf16 (reg : Byte) (bs : BitVec 4) (len : BitVec 5)
  | wrbits8 (bs : BitVec 4) (len : BitVec 5) (stop : Bool)
  | wrbits16 (bs : BitVec 4) (len : BitVec 5) (stop : Bool)
  | init
  | getglobal
deriving DecidableEq, Repr

end Sys2Proof
end

