-- ==== Sys2Proof/WellFormed.lean ====
section
/-! DEFINITION. Which commands are well formed: those whose bit position or descriptor is valid (00_scope.md R7, 40_bitfield_algebra.md R100). The types of the fields already keep every operand inside its encoding. A command that is not well formed still runs: it raises BAD_BITPOS or BAD_DESCRIPTOR. -/

namespace Sys2Proof

/-- R7: "`0 <= length <= bitStart+1 <= width`". -/
def descriptorFits (w : Width) (bs : BitVec 4) (len : BitVec 5) : Bool :=
  decide (len.toNat ≤ bs.toNat + 1) && decide (bs.toNat + 1 ≤ w.bits)

/-- A bit position below the width (R100). -/
def positionFits (w : Width) (p : BitVec 4) : Bool :=
  decide (p.toNat + 1 ≤ w.bits)

/-- The operands meet the source's demand "callers must validate before invoking" (R100). -/
def Instr.wellFormed : Instr → Bool
  | .getbit8 p => positionFits .w8 p
  | .getbit16 p => positionFits .w16 p
  | .setbit8 _ p => positionFits .w8 p
  | .setbit16 _ p => positionFits .w16 p
  | .getbits8 bs len => descriptorFits .w8 bs len
  | .getbits16 bs len => descriptorFits .w16 bs len
  | .setbits8 bs len => descriptorFits .w8 bs len
  | .setbits16 bs len => descriptorFits .w16 bs len
  | .rdreg8 _ => true
  | .rdreg16 _ => true
  | .rdregs _ => true
  | .wrreg8 _ => true
  | .wrreg16 _ => true
  | .wrregs _ => true
  | .rdregbit8 _ p => positionFits .w8 p
  | .rdregbit16 _ p => positionFits .w16 p
  | .rdregbf8 _ bs len => descriptorFits .w8 bs len
  | .rdregbf16 _ bs len => descriptorFits .w16 bs len
  | .rdbits8 bs len _ => descriptorFits .w8 bs len
  | .rdbits16 bs len _ => descriptorFits .w16 bs len
  | .wrregbit8 _ p _ => positionFits .w8 p
  | .wrregbit16 _ p _ => positionFits .w16 p
  | .wrregbf8 _ bs len => descriptorFits .w8 bs len
  | .wrregbf16 _ bs len => descriptorFits .w16 bs len
  | .wrbits8 bs len _ => descriptorFits .w8 bs len
  | .wrbits16 bs len _ => descriptorFits .w16 bs len
  | .init => true
  | .getglobal => true

end Sys2Proof
end

