-- ==== Sys2Proof/Decode.lean ====
section
/-! DEFINITION. The command word: its fields (30_encoding.md R71), the decoder (R79, R80), the encoder (R83) and the assembler's second spellings (R84). -/

namespace Sys2Proof

/-! ## Fields of a command word (R71) -/

/-- OP, bits 4:0. -/
def fieldOp (c : Word) : BitVec 5 := c.extractLsb' 0 5
/-- W, bit 5: true selects the 16-bit form. -/
def fieldW (c : Word) : Bool := c.getLsbD 5
/-- BS, bits 9:6. -/
def fieldBs (c : Word) : BitVec 4 := c.extractLsb' 6 4
/-- LEN, bits 14:10. -/
def fieldLen (c : Word) : BitVec 5 := c.extractLsb' 10 5
/-- F, bit 15. -/
def fieldF (c : Word) : Bool := c.getLsbD 15
/-- REG, bits 23:16. -/
def fieldReg (c : Word) : Byte := c.extractLsb' 16 8
/-- RSV, bits 31:24. -/
def fieldRsv (c : Word) : Byte := c.extractLsb' 24 8

/-! ## The decoder -/

/-- Why a word is no command; all three raise ILLEGAL_CMD (R80). -/
inductive IllegalWord where
  /-- RSV is not 0. -/
  | reservedBits
  /-- OP is 0x10 to 0x1F. -/
  | reservedOpcode
  /-- W = 1 with RDREGS, WRREGS, INIT or GETGLOBAL. -/
  | noWordForm
deriving DecidableEq, Repr

/-- What a command word decodes to. -/
inductive Decoded where
  | ok (i : Instr)
  | illegal (why : IllegalWord)
deriving DecidableEq, Repr

/-- The row of an opcode that has an 8-bit and a 16-bit form (R78). -/
def byWidth (c : Word) (i8 i16 : Instr) : Decoded :=
  if fieldW c then .ok i16 else .ok i8

/-- The row of an opcode that has only the form W = 0 (R80). -/
def byteFormOnly (c : Word) (i : Instr) : Decoded :=
  if fieldW c then .illegal .noWordForm else .ok i

/-- Decode a command word (R79): only OP, W and RSV choose the row of R78. -/
def decode (c : Word) : Decoded :=
  if fieldRsv c ≠ 0#8 then .illegal .reservedBits
  else match (fieldOp c).toNat with
    | 0x00 => byWidth c (.getbit8 (fieldBs c)) (.getbit16 (fieldBs c))
    | 0x01 => byWidth c (.setbit8 (fieldF c) (fieldBs c)) (.setbit16 (fieldF c) (fieldBs c))
    | 0x02 => byWidth c (.getbits8 (fieldBs c) (fieldLen c)) (.getbits16 (fieldBs c) (fieldLen c))
    | 0x03 => byWidth c (.setbits8 (fieldBs c) (fieldLen c)) (.setbits16 (fieldBs c) (fieldLen c))
    | 0x04 => byWidth c (.rdreg8 (fieldReg c)) (.rdreg16 (fieldReg c))
    | 0x05 => byteFormOnly c (.rdregs (fieldReg c))
    | 0x06 => byWidth c (.wrreg8 (fieldReg c)) (.wrreg16 (fieldReg c))
    | 0x07 => byteFormOnly c (.wrregs (fieldReg c))
    | 0x08 => byWidth c (.rdregbit8 (fieldReg c) (fieldBs c)) (.rdregbit16 (fieldReg c) (fieldBs c))
    | 0x09 => byWidth c (.rdregbf8 (fieldReg c) (fieldBs c) (fieldLen c))
                (.rdregbf16 (fieldReg c) (fieldBs c) (fieldLen c))
    | 0x0A => byWidth c (.rdbits8 (fieldBs c) (fieldLen c) (fieldF c))
                (.rdbits16 (fieldBs c) (fieldLen c) (fieldF c))
    | 0x0B => byWidth c (.wrregbit8 (fieldReg c) (fieldBs c) (fieldF c))
                (.wrregbit16 (fieldReg c) (fieldBs c) (fieldF c))
    | 0x0C => byWidth c (.wrregbf8 (fieldReg c) (fieldBs c) (fieldLen c))
                (.wrregbf16 (fieldReg c) (fieldBs c) (fieldLen c))
    | 0x0D => byWidth c (.wrbits8 (fieldBs c) (fieldLen c) (fieldF c))
                (.wrbits16 (fieldBs c) (fieldLen c) (fieldF c))
    | 0x0E => byteFormOnly c .init
    | 0x0F => byteFormOnly c .getglobal
    | _ => .illegal .reservedOpcode

/-- The command a word stands for, if it is one. -/
def Decoded.instr? : Decoded → Option Instr
  | .ok i => some i
  | .illegal _ => none

/-- The word of an opcode-table row: its first `nbits` bits as the table numbers them, every bit above them 0. -/
def tableWord (nbits w : Nat) : Word := BitVec.ofNat 32 (w % 2 ^ nbits)

/-- What the decoder reads from a row's word. A command is one 32-bit word the host moves whole (R55, R70), so there is
no byte order to lay out. -/
def decodeTableWord (nbits w : Nat) : Option Instr := (decode (tableWord nbits w)).instr?

/-! ## The encoder -/

/-- The word of the given fields: `OP | W << 5 | BS << 6 | LEN << 10 | F << 15 | REG << 16` (R83). -/
def assemble (op : BitVec 5) (w : Width) (bs : BitVec 4) (len : BitVec 5) (f : Bool) (reg : Byte) : Word :=
  op.setWidth 32 ||| (BitVec.ofBool (w == .w16)).setWidth 32 <<< 5 ||| bs.setWidth 32 <<< 6 |||
    len.setWidth 32 <<< 10 ||| (BitVec.ofBool f).setWidth 32 <<< 15 ||| reg.setWidth 32 <<< 16

/-- The word of a command: the fields R83 lists for it, every other field 0. -/
def encode : Instr → Word
  | .getbit8 p => assemble 0x00 .w8 p 0 false 0
  | .getbit16 p => assemble 0x00 .w16 p 0 false 0
  | .setbit8 d p => assemble 0x01 .w8 p 0 d 0
  | .setbit16 d p => assemble 0x01 .w16 p 0 d 0
  | .getbits8 bs len => assemble 0x02 .w8 bs len false 0
  | .getbits16 bs len => assemble 0x02 .w16 bs len false 0
  | .setbits8 bs len => assemble 0x03 .w8 bs len false 0
  | .setbits16 bs len => assemble 0x03 .w16 bs len false 0
  | .rdreg8 reg => assemble 0x04 .w8 0 0 false reg
  | .rdreg16 reg => assemble 0x04 .w16 0 0 false reg
  | .rdregs reg => assemble 0x05 .w8 0 0 false reg
  | .wrreg8 reg => assemble 0x06 .w8 0 0 false reg
  | .wrreg16 reg => assemble 0x06 .w16 0 0 false reg
  | .wrregs reg => assemble 0x07 .w8 0 0 false reg
  | .rdregbit8 reg p => assemble 0x08 .w8 p 0 false reg
  | .rdregbit16 reg p => assemble 0x08 .w16 p 0 false reg
  | .rdregbf8 reg bs len => assemble 0x09 .w8 bs len false reg
  | .rdregbf16 reg bs len => assemble 0x09 .w16 bs len false reg
  | .rdbits8 bs len stop => assemble 0x0A .w8 bs len stop 0
  | .rdbits16 bs len stop => assemble 0x0A .w16 bs len stop 0
  | .wrregbit8 reg p d => assemble 0x0B .w8 p 0 d reg
  | .wrregbit16 reg p d => assemble 0x0B .w16 p 0 d reg
  | .wrregbf8 reg bs len => assemble 0x0C .w8 bs len false reg
  | .wrregbf16 reg bs len => assemble 0x0C .w16 bs len false reg
  | .wrbits8 bs len stop => assemble 0x0D .w8 bs len stop 0
  | .wrbits16 bs len stop => assemble 0x0D .w16 bs len stop 0
  | .init => assemble 0x0E .w8 0 0 false 0
  | .getglobal => assemble 0x0F .w8 0 0 false 0

/-! ## Second spellings of the assembler (R84), each exactly one command word -/

/-- `SETB.w p` = `SETBIT.w 1, p`. -/
def asmSetb (w : Width) (p : BitVec 4) : Instr :=
  match w with
  | .w8 => .setbit8 true p
  | .w16 => .setbit16 true p

/-- `CLRB.w p` = `SETBIT.w 0, p`. -/
def asmClrb (w : Width) (p : BitVec 4) : Instr :=
  match w with
  | .w8 => .setbit8 false p
  | .w16 => .setbit16 false p

/-- `BSETR.w reg, p` = `WRREGBIT.w reg, p, 1`. -/
def asmBsetr (w : Width) (reg : Byte) (p : BitVec 4) : Instr :=
  match w with
  | .w8 => .wrregbit8 reg p true
  | .w16 => .wrregbit16 reg p true

/-- `BCLRR.w reg, p` = `WRREGBIT.w reg, p, 0`. -/
def asmBclrr (w : Width) (reg : Byte) (p : BitVec 4) : Instr :=
  match w with
  | .w8 => .wrregbit8 reg p false
  | .w16 => .wrregbit16 reg p false

end Sys2Proof
end

