-- ==== Sys2Proof/Config.lean ====
section
/-! DEFINITION. What an implementation of BITOPS fixes (00_scope.md R5) and the free values (93_implementation_defined.md V1 to V5). -/

namespace Sys2Proof

/-- The implementation parameters of R5 and R31. They are a field of State that no step changes, so a statement about
every state holds for every value of them (log entries 3 and 4). -/
structure Params where
  /-- MAX_N, the number of BUF bytes, 1 to 64; PARAMS[7:0]. -/
  maxN : Nat
  /-- READ_BIT8_NORMALIZE; PARAMS[8]. -/
  readBit8Normalize : Bool
  /-- I2C_ENABLED; PARAMS[9]. -/
  i2cEnabled : Bool
  /-- I2C_CONFIG, a token that `Create` passes on and nothing else reads; not visible in PARAMS. -/
  i2cConfig : Nat
deriving DecidableEq, Repr

/-- `1 <= MAX_N <= 64` (R5). -/
abbrev Params.wf (p : Params) : Prop := 1 ≤ p.maxN ∧ p.maxN ≤ 64

/-- The reference configuration of R5. DESIGN CHOICE for I2C_ENABLED and I2C_CONFIG, for which R5 names no reference value
(log entry 3). -/
def Config.reference : Params :=
  { maxN := 32, readBit8Normalize := false, i2cEnabled := true, i2cConfig := 0 }

/-- Free value number n where the spec says "any value" of a byte (V1, V2, V4): no body, so no proof sees what it is (log entry 5). -/
opaque Config.freeByte : Nat → Byte

/-- Free value number n where the spec says "any value" of a 32-bit read (V4, V5; log entry 5). -/
opaque Config.freeWord : Nat → Word

/-- Free value number n where the spec says "any value" of STATUS.OK (V4; log entry 5). -/
opaque Config.freeBit : Nat → Bool

end Sys2Proof
end

