-- ==== Sys2Proof/Machine/State.lean ====
section
/-! DEFINITION. The state of BITOPS (10_state.md R20 to R34) as plain data, the inputs that move it, what it shows to TRANSPORT and HOST, and its reset value. -/

namespace Sys2Proof.Machine

/-- The fault codes of 60_exceptions.md R191; the codes 9 to 15 are never raised and have no name here. -/
inductive FaultCode where
  | none
  | illegalCmd
  | badDescriptor
  | badBitpos
  | noHandle
  | busyWrite
  | reinit
  | countRange
  | hostAccess
deriving DecidableEq, Repr

/-- STATUS (R23). Its reserved bits read 0 and have no storage; `statusWord` gives the word the host reads. -/
structure Status where
  busy : Bool
  ok : Bool
  fault : Bool
  initd : Bool
  fcode : FaultCode
deriving DecidableEq, Repr

/-- A request BITOPS sends to TRANSPORT (00_scope.md R8). `conn` is the HANDLE the command latched. -/
inductive Request where
  | busWrite (conn : Word) (dev : Half) (bytes : List Byte) (stop : Bool)
  | busRead (conn : Word) (dev : Half) (n : Nat) (stop : Bool)
  | create (cfg : Nat)
deriving DecidableEq, Repr

/-- TRANSPORT's answer to a request (R8, R9): `ok` for a bus request, `data` for a successful read, `handle` for `Create`.
A request looks only at the parts its kind has. -/
structure Answer where
  ok : Bool
  data : List Byte
  handle : Word
deriving DecidableEq, Repr

/-- One thing that reaches BITOPS from outside, or BLOCK taking its turn (log entry 1). -/
inductive Event where
  /-- HOST writes `value` in an access that moves `bits` bits at byte offset `offset`. -/
  | hostWrite (bits offset : Nat) (value : Word)
  /-- HOST reads in an access that moves `bits` bits at byte offset `offset`. -/
  | hostRead (bits offset : Nat)
  /-- TRANSPORT answers the outstanding request. -/
  | answer (a : Answer)
  /-- TRANSPORT answers a request that a fault or a reset abandoned; the answer is discarded (R201, R220). -/
  | lateAnswer (a : Answer)
  /-- BLOCK takes the step it can take by itself (log entry 10). -/
  | block
  /-- Reset (R220). -/
  | reset
deriving DecidableEq, Repr

/-- The operands a command latches when it starts (30_encoding.md R77, R33); `payload` is for WRREGS, else empty. -/
structure Latched where
  opw : Half
  opv : Half
  dev : Half
  cnt : Byte
  conn : Word
  payload : List Byte
deriving DecidableEq, Repr

/-- SEQ (R33): the running command's word, its latched operands, and the answers it has received. The k of R33, the
position in the command's request sequence, is the number of those answers (log entry 12). -/
inductive Seq where
  | idle
  | running (c : Word) (ops : Latched) (replies : List Answer)
deriving DecidableEq, Repr

/-- Bytes by address: addresses strictly rising, an address not listed has no value (log entry 6). -/
abbrev Memory := List Host.Cell

/-- The canonical form of a memory: addresses strictly rising. Every listed byte differs from "no value". -/
abbrev Memory.wf (m : Memory) : Prop := m.Pairwise fun x y => x.1 < y.1

/-- The state of BITOPS, its pending inputs and its outputs. -/
structure State where
  /-- CMD (R22). -/
  cmd : Word
  /-- STATUS (R23). -/
  status : Status
  /-- RESULT (R24). -/
  result : Word
  /-- OPW[15:0] (R25). -/
  opw : Half
  /-- OPV[15:0] (R26). -/
  opv : Half
  /-- DEV[15:0] (R27). -/
  dev : Half
  /-- CNT[7:0] (R28). -/
  cnt : Byte
  /-- HANDLE (R29). -/
  handle : Word
  /-- FINFO (R30). -/
  finfo : Word
  /-- PARAMS and the invisible I2C_CONFIG (R5, R31): constant. -/
  params : Params
  /-- BUF (R32). -/
  buf : Memory
  /-- SEQ (R33). -/
  seq : Seq
  /-- The model's own: what happens next, oldest first (log entry 1). -/
  env : List Event
  /-- The model's own: every request sent to TRANSPORT, oldest first (log entry 13). -/
  bus : List Request
  /-- The model's own: what the latest host read returned (log entry 13). -/
  hostData : Word
  /-- The model's own: how many free values have been used (log entry 5). -/
  draws : Nat
deriving DecidableEq, Repr

/-- Reasons for the model to stop. There are none: every fault of BITOPS (R191) is a NEXT state with STATUS.FAULT set. -/
inductive Fault where
deriving DecidableEq, Repr

/-- Reasons for the model to give an instruction no meaning. -/
inductive Refusal where
  /-- Raised by an arm of `exec` whose instruction has no meaning yet; no arm is left that raises it. Safe. -/
  | notModelled (mnemonic : String)
deriving DecidableEq, Repr

/-- What a step or a meaning answers. -/
abbrev Out := Host.Outcome State Fault Refusal

/-! ## Updates of one field -/

def State.setCmd (s : State) (v : Word) : State := { s with cmd := v }
def State.setStatus (s : State) (v : Status) : State := { s with status := v }
def State.setResult (s : State) (v : Word) : State := { s with result := v }
def State.setOpw (s : State) (v : Half) : State := { s with opw := v }
def State.setOpv (s : State) (v : Half) : State := { s with opv := v }
def State.setDev (s : State) (v : Half) : State := { s with dev := v }
def State.setCnt (s : State) (v : Byte) : State := { s with cnt := v }
def State.setHandle (s : State) (v : Word) : State := { s with handle := v }
def State.setFinfo (s : State) (v : Word) : State := { s with finfo := v }
def State.setBuf (s : State) (v : Memory) : State := { s with buf := v }
def State.setSeq (s : State) (v : Seq) : State := { s with seq := v }
def State.setEnv (s : State) (v : List Event) : State := { s with env := v }
def State.setBus (s : State) (v : List Request) : State := { s with bus := v }
def State.setHostData (s : State) (v : Word) : State := { s with hostData := v }
def State.setDraws (s : State) (v : Nat) : State := { s with draws := v }

/-! ## Reset -/

/-- STATUS after reset: 0x00000000 (R34). -/
def Status.reset : Status :=
  { busy := false, ok := false, fault := false, initd := false, fcode := .none }

/-- The machine right after reset with parameters `p` (R34, R221): every register 0, no BUF byte has a value, SEQ idle. -/
def State.resetWith (p : Params) : State :=
  { cmd := 0, status := Status.reset, result := 0, opw := 0, opv := 0, dev := 0, cnt := 0, handle := 0, finfo := 0,
    params := p, buf := [], seq := .idle, env := [], bus := [], hostData := 0, draws := 0 }

/-- The machine right after reset, in the reference configuration of 00_scope.md R5 (log entry 3). -/
def State.reset : State := State.resetWith Config.reference

end Sys2Proof.Machine
end

