-- ==== Sys2Proof/Machine/Flags.lean ====
section
/-! DEFINITION. STATUS and PARAMS as the host reads them (10_state.md R23, R31) and how the end of a command sets STATUS.OK, STATUS.BUSY and RESULT (00_scope.md R8 `complete`, 40_bitfield_algebra.md R102, 41_register_access.md R131). -/

namespace Sys2Proof.Machine

/-- FCODE of a fault (60_exceptions.md R191). -/
def FaultCode.code : FaultCode → BitVec 4
  | .none => 0
  | .illegalCmd => 1
  | .badDescriptor => 2
  | .badBitpos => 3
  | .noHandle => 4
  | .busyWrite => 5
  | .reinit => 6
  | .countRange => 7
  | .hostAccess => 8

/-- STATUS as a word (R23): BUSY [0], OK [1], FAULT [2], INITD [3], FCODE [11:8]; the reserved bits read 0. -/
def statusWord (st : Status) : Word :=
  (BitVec.ofBool st.busy).setWidth 32 ||| (BitVec.ofBool st.ok).setWidth 32 <<< 1 |||
    (BitVec.ofBool st.fault).setWidth 32 <<< 2 ||| (BitVec.ofBool st.initd).setWidth 32 <<< 3 |||
    st.fcode.code.setWidth 32 <<< 8

/-- PARAMS as a word (R31): MAX_N [7:0], READ_BIT8_NORMALIZE [8], I2C_ENABLED [9]; bits 31:10 read 0. -/
def paramsWord (p : Params) : Word :=
  (BitVec.ofNat 8 p.maxN).setWidth 32 ||| (BitVec.ofBool p.readBit8Normalize).setWidth 32 <<< 8 |||
    (BitVec.ofBool p.i2cEnabled).setWidth 32 <<< 9

/-- `zext_32` of a value (R8). -/
def zext32 (v : Nat) : Word := BitVec.ofNat 32 v

/-- -1 in a 32-bit register (R8): the failure result of a value command (R131). -/
def minusOne : Word := 0xFFFFFFFF#32

/-- A command that completes in the accepting step (R102, R181): RESULT <- r, STATUS.OK <- 1; BUSY stays as it is. -/
def succeedNow (r : Word) (s : State) : State :=
  (s.setResult r).setStatus { s.status with ok := true }

/-- `complete(ok, result)` (R8): STATUS.OK <- ok, RESULT <- result, STATUS.BUSY <- 0; SEQ is Idle when BUSY is 0 (R33). -/
def complete (ok : Bool) (r : Word) (s : State) : State :=
  ((s.setResult r).setStatus { s.status with ok := ok, busy := false }).setSeq .idle

end Sys2Proof.Machine
end

