-- ==== Sys2Proof/Machine/Ops.lean ====
section
/-! DEFINITION. The operations over BUF, the free values, the fault entry (60_exceptions.md R200 to R202) and reset (70_reset_and_hazards.md R220). There is no return from a fault but reset (R202). -/

namespace Sys2Proof.Machine

/-! ## BUF (20_memory.md R52) -/

/-- What a byte that nothing has written holds: no value (R34; log entry 6). -/
def Memory.unlisted : Option Byte := none

/-- The value of the byte at address `a`, if it has one. -/
def Memory.read : Memory → Nat → Option Byte
  | [], _ => Memory.unlisted
  | (b, v) :: rest, a => if b = a then some v else Memory.read rest a

/-- Give the byte at address `a` the value `v`, keeping the addresses strictly rising. -/
def Memory.write : Memory → Nat → Byte → Memory
  | [], a, v => [(a, v)]
  | (b, u) :: rest, a, v =>
    if a < b then (a, v) :: (b, u) :: rest
    else if a = b then (a, v) :: rest
    else (b, u) :: Memory.write rest a v

/-- `MemWrite(i, n, bytes)` (R8, R52). -/
def Memory.store (m : Memory) (i : Nat) : List Byte → Memory
  | [] => m
  | v :: vs => Memory.store (m.write i v) (i + 1) vs

/-- The byte BUF[i], a free value where nothing has written it (R34; log entry 6). `d` is the number of that free value. -/
def bufByte (m : Memory) (i d : Nat) : Byte := (m.read i).getD (Config.freeByte d)

/-- `MemRead(0, n)` (R8, R52); byte k takes free value number `d + k` if it has no value. -/
def memRead (m : Memory) (n d : Nat) : List Byte := (List.range n).map fun k => bufByte m k (d + k)

/-- `n` free bytes, the first of them free value number `d`. -/
def freeBytes (n d : Nat) : List Byte := (List.range n).map fun k => Config.freeByte (d + k)

/-- `for k in 0..n-1: BUF[k] <- any value` (41_register_access.md R138; R201). -/
def drawBuf (n : Nat) (s : State) : State :=
  (s.setBuf (s.buf.store 0 (freeBytes n s.draws))).setDraws (s.draws + n)

/-! ## Faults -/

/-- How many BUF bytes the running command may have touched already: those of an RDREGS whose data read is outstanding
(R201; log entry 9). -/
def touchedBytes : Seq → Nat
  | .idle => 0
  | .running c ops replies =>
    match decode c with
    | .ok (.rdregs _) => if replies.length = 1 then ops.cnt.toNat else 0
    | _ => 0

/-- Abandon the running command, if any (R201): no further request, BUSY <- 0, and an answer that still comes is discarded. -/
def abandon (s : State) : State :=
  match s.seq with
  | .idle => s
  | .running c ops replies =>
    ((drawBuf (touchedBytes (.running c ops replies)) s).setStatus { s.status with busy := false }).setSeq .idle

/-- Fault entry, `raise Fault(code, info)` (R200, R202). -/
def raiseFault (code : FaultCode) (info : Word) (s : State) : State :=
  if s.status.fault then s
  else
    let t := abandon s
    (t.setStatus { t.status with fault := true, fcode := code }).setFinfo info

/-- A fault raised by a command: FINFO is the command word (R30, R191). -/
def commandFault (code : FaultCode) (s : State) : Out := .next (raiseFault code s.cmd s)

/-- FINFO of HOST_ACCESS and BUSY_WRITE: `(is_write << 31) | offset[11:0]` (R30). -/
def accessInfo (isWrite : Bool) (offset : Nat) : Word :=
  (BitVec.ofBool isWrite).setWidth 32 <<< 31 ||| (BitVec.ofNat 12 offset).setWidth 32

/-! ## Reset -/

/-- The event reset (R220): every piece of the spec's state to its value of R34; the parameters stay (R31), and so do the
model's own inputs, outputs and counter (log entry 14). -/
def resetEvent (s : State) : State :=
  ((((State.resetWith s.params).setEnv s.env).setBus s.bus).setHostData s.hostData).setDraws s.draws

end Sys2Proof.Machine
end

