-- ==== Sys2Proof/Machine/Operands.lean ====
section
/-! DEFINITION. Operands: the checks of 40_bitfield_algebra.md R100, the pure functions of R101 on naturals (R112), the latching of 30_encoding.md R77, and the byte order of words on the bus (20_memory.md R53). -/

namespace Sys2Proof.Machine

/-! ## Checks (R100) -/

/-- `validPos(w, p) = p < w`. -/
def validPos (w : Width) (p : Nat) : Bool := decide (p < w.bits)

/-- `validDesc(w, bs, len) = bs < w and len <= bs + 1`. -/
def validDesc (w : Width) (bs len : Nat) : Bool := decide (bs < w.bits ∧ len ≤ bs + 1)

/-! ## The pure functions (R101) -/

/-- `ones(n)` is 2^n - 1 (R8). -/
def ones (n : Nat) : Nat := 2 ^ n - 1

/-- `~_w a`, the w-bit complement (R8). -/
def complement (w : Width) (a : Nat) : Nat := (2 ^ w.bits - 1) - a % 2 ^ w.bits

/-- `lo(bs, len) = bs - len + 1` (R7), never negative for a valid descriptor. -/
def lowBit (bs len : Nat) : Nat := bs + 1 - len

/-- `getBit_w(x, p)`. -/
def getBit (x p : Nat) : Nat := (x >>> p) &&& 1

/-- `setBit_w(d, p, x)`. -/
def setBit (w : Width) (d : Bool) (p x : Nat) : Nat :=
  if d then x ||| (1 <<< p) else x &&& complement w (1 <<< p)

/-- `fieldMask_w(bs, len)`. -/
def fieldMask (bs len : Nat) : Nat := ones len <<< lowBit bs len

/-- `getBits_w(x, bs, len)`. -/
def getBits (x bs len : Nat) : Nat := (x >>> lowBit bs len) &&& ones len

/-- `setBits_w(x, bs, len, v)`. -/
def setBits (w : Width) (x bs len v : Nat) : Nat :=
  (x &&& complement w (fieldMask bs len)) ||| ((v <<< lowBit bs len) &&& fieldMask bs len)

/-! ## Register operands (R77) -/

/-- `OPW[w-1:0]` or `OPV[w-1:0]`: an 8-bit command reads bits 7:0 only (R25, R26). -/
def operandWord (w : Width) (v : Half) : Nat := v.toNat % 2 ^ w.bits

/-- The operand registers as a command latches them when it starts (R33); no payload. -/
def latch (s : State) : Latched :=
  { opw := s.opw, opv := s.opv, dev := s.dev, cnt := s.cnt, conn := s.handle, payload := [] }

/-- The same for WRREGS: `payload = MemRead(0, n)`, only when n <= MAX_N (R77). -/
def latchPayload (s : State) : Latched :=
  { latch s with payload := if s.cnt.toNat ≤ s.params.maxN then memRead s.buf s.cnt.toNat s.draws else [] }

/-! ## Words on the bus (R53): high byte first -/

/-- `high(v) = v[15:8]`. -/
def highByte (v : Nat) : Byte := BitVec.ofNat 8 (v / 256)

/-- `low(v) = v[7:0]`. -/
def lowByte (v : Nat) : Byte := BitVec.ofNat 8 v

/-- A value as the bytes that carry it. -/
def wordBytes (w : Width) (v : Nat) : List Byte :=
  match w with
  | .w8 => [lowByte v]
  | .w16 => [highByte v, lowByte v]

/-- Byte `k` of a read's data; a read delivers every byte its command asks for (R8, D39). -/
def dataByte (d : List Byte) (k : Nat) : Nat := (d.getD k 0#8).toNat

/-- The value the bytes of a read carry: `d[0]`, or `(d[0] << 8) | d[1]` (R132, R134). -/
def bytesWord (w : Width) (d : List Byte) : Nat :=
  match w with
  | .w8 => dataByte d 0
  | .w16 => (dataByte d 0 <<< 8) ||| dataByte d 1

end Sys2Proof.Machine
end

