-- ==== Sys2Proof/Machine/Bitfield.lean ====
section
/-! DEFINITION. The bitfield unit: GETBIT, SETBIT, GETBITS, SETBITS (40_bitfield_algebra.md R103 to R110). Each completes in the accepting step (R102). -/

namespace Sys2Proof.Machine

/-- A pure command on one bit: BAD_BITPOS unless validPos, else RESULT <- zext_32(r), OK <- 1 (R100, R102). -/
def bitCommand (w : Width) (p : BitVec 4) (r : Nat) (s : State) : Out :=
  if validPos w p.toNat then .next (succeedNow (zext32 r) s) else commandFault .badBitpos s

/-- A pure command on a bitfield: BAD_DESCRIPTOR unless validDesc, else RESULT <- zext_32(r), OK <- 1 (R100, R102). -/
def fieldCommand (w : Width) (bs : BitVec 4) (len : BitVec 5) (r : Nat) (s : State) : Out :=
  if validDesc w bs.toNat len.toNat then .next (succeedNow (zext32 r) s) else commandFault .badDescriptor s

/-- GETBIT.8 (R103). -/
def execGetbit8 (p : BitVec 4) (s : State) : Out :=
  bitCommand .w8 p (getBit (operandWord .w8 s.opw) p.toNat) s

/-- GETBIT.16 (R104); every p is valid. -/
def execGetbit16 (p : BitVec 4) (s : State) : Out :=
  bitCommand .w16 p (getBit (operandWord .w16 s.opw) p.toNat) s

/-- SETBIT.8 (R105). -/
def execSetbit8 (d : Bool) (p : BitVec 4) (s : State) : Out :=
  bitCommand .w8 p (setBit .w8 d p.toNat (operandWord .w8 s.opw)) s

/-- SETBIT.16 (R106); every p is valid. -/
def execSetbit16 (d : Bool) (p : BitVec 4) (s : State) : Out :=
  bitCommand .w16 p (setBit .w16 d p.toNat (operandWord .w16 s.opw)) s

/-- GETBITS.8 (R107). -/
def execGetbits8 (bs : BitVec 4) (len : BitVec 5) (s : State) : Out :=
  fieldCommand .w8 bs len (getBits (operandWord .w8 s.opw) bs.toNat len.toNat) s

/-- GETBITS.16 (R108). -/
def execGetbits16 (bs : BitVec 4) (len : BitVec 5) (s : State) : Out :=
  fieldCommand .w16 bs len (getBits (operandWord .w16 s.opw) bs.toNat len.toNat) s

/-- SETBITS.8 (R109). -/
def execSetbits8 (bs : BitVec 4) (len : BitVec 5) (s : State) : Out :=
  fieldCommand .w8 bs len
    (setBits .w8 (operandWord .w8 s.opw) bs.toNat len.toNat (operandWord .w8 s.opv)) s

/-- SETBITS.16 (R110). -/
def execSetbits16 (bs : BitVec 4) (len : BitVec 5) (s : State) : Out :=
  fieldCommand .w16 bs len
    (setBits .w16 (operandWord .w16 s.opw) bs.toNat len.toNat (operandWord .w16 s.opv)) s

end Sys2Proof.Machine
end

