-- ==== Sys2Proof/Machine/Procedure.lean ====
section
/-! DEFINITION. The request sequence of a bus command as its rule writes it (41_register_access.md R130 to R135), and how BLOCK carries one out: start, send a request, take an answer, finish. -/

namespace Sys2Proof.Machine

/-- What a command does to BUF as it ends. -/
inductive BufEffect where
  /-- BUF is unchanged. -/
  | keep
  /-- `MemWrite(0, n, bytes)`. -/
  | store (bytes : List Byte)
  /-- `for k in 0..n-1: BUF[k] <- any value`. -/
  | drawn (n : Nat)
deriving DecidableEq, Repr

/-- The end of a command: its effects on BUF and HANDLE, then `complete(ok, result)`, in one step (R60, R130). -/
structure Finish where
  ok : Bool
  result : Word
  buf : BufEffect
  newHandle : Option Word
deriving DecidableEq, Repr

/-- The rest of a command: a request, and what follows each answer to it; or the end. -/
inductive Proc where
  | request (r : Request) (next : Answer → Proc)
  | finish (f : Finish)

/-- What is left of a command after the given answers. -/
def Proc.after : Proc → List Answer → Proc
  | p, [] => p
  | .request _ next, a :: rest => (next a).after rest
  | .finish f, _ :: _ => .finish f

/-! ## The primitives of R8 -/

/-- `BusWrite(dev, bytes, stop)`: the answer is a Bool. -/
def busWrite (o : Latched) (bytes : List Byte) (stop : Bool) (next : Bool → Proc) : Proc :=
  .request (.busWrite o.conn o.dev bytes stop) fun a => next a.ok

/-- `BusRead(dev, n, stop)`: the answer is (ok, data); when ok is false the data are discarded. -/
def busRead (o : Latched) (n : Nat) (stop : Bool) (next : Option (List Byte) → Proc) : Proc :=
  .request (.busRead o.conn o.dev n stop) fun a => next (if a.ok then some a.data else none)

/-- `Create(cfg)`: the answer is a 32-bit value, 0 meaning failure. -/
def createHandle (cfg : Nat) (next : Word → Proc) : Proc :=
  .request (.create cfg) fun a => next a.handle

/-- `complete(ok, result)` with no effect on BUF or HANDLE. -/
def finishWith (ok : Bool) (result : Word) : Proc :=
  .finish { ok := ok, result := result, buf := .keep, newHandle := none }

/-- How a value command ends (R131): `complete(1, zext_32(v))` or `complete(0, -1)`. -/
def finishValue (v : Option Nat) : Proc :=
  match v with
  | some n => finishWith true (zext32 n)
  | none => finishWith false minusOne

/-- How a boolean command ends (R131): `complete(1, 1)` or `complete(0, 0)`. -/
def finishBool (ok : Bool) : Proc :=
  if ok then finishWith true 1#32 else finishWith false 0#32

/-! ## The procedures of R132 to R135; `none` is FAIL -/

/-- `readReg_w(dev, reg)` (R132). -/
def readReg (w : Width) (o : Latched) (reg : Byte) (next : Option Nat → Proc) : Proc :=
  busWrite o [reg] false fun ok =>
    if ok then busRead o w.bytes true fun d => next (d.map (bytesWord w)) else next none

/-- `writeReg_w(dev, reg, v)` (R133). -/
def writeReg (w : Width) (o : Latched) (reg : Byte) (v : Nat) (next : Bool → Proc) : Proc :=
  busWrite o (reg :: wordBytes w v) true next

/-- `rawRead_w(dev, stop)` (R134). -/
def rawRead (w : Width) (o : Latched) (stop : Bool) (next : Option Nat → Proc) : Proc :=
  busRead o w.bytes stop fun d => next (d.map (bytesWord w))

/-- `rawWrite_w(dev, v, stop)` (R135). -/
def rawWrite (w : Width) (o : Latched) (v : Nat) (stop : Bool) (next : Bool → Proc) : Proc :=
  busWrite o (wordBytes w v) stop next

/-! ## Carrying a command out (R130) -/

/-- The BUF effect of a command's end. -/
def applyBuf (e : BufEffect) (s : State) : State :=
  match e with
  | .keep => s
  | .store bytes => s.setBuf (s.buf.store 0 bytes)
  | .drawn n => drawBuf n s

/-- The end of a command. -/
def applyFinish (f : Finish) (s : State) : State :=
  let t := applyBuf f.buf s
  complete f.ok f.result
    (match f.newHandle with
     | some h => t.setHandle h
     | none => t)

/-- Send the next request, or end the command. -/
def advance (p : Proc) (s : State) : State :=
  match p with
  | .request r _ => s.setBus (s.bus ++ [r])
  | .finish f => applyFinish f s

/-- Start a command (R130 step 1): SEQ <- Running, STATUS.BUSY <- 1, and its first request is sent (log entry 11). A
command that has no request to send stays Running until BLOCK's next turn (R141: BUSY 1 then 0; log entry 10). -/
def start (p : Proc) (o : Latched) (s : State) : State :=
  let t := (s.setStatus { s.status with busy := true }).setSeq (.running s.cmd o [])
  match p with
  | .request r _ => t.setBus (t.bus ++ [r])
  | .finish _ => t

/-- Start a bus command whose operand checks have passed, or raise NO_HANDLE (R195, R203). -/
def startBus (p : Params → Latched → Proc) (o : Latched) (s : State) : Out :=
  if s.handle = 0#32 then commandFault .noHandle s else .next (start (p s.params o) o s)

/-- The data of a successful read of `n` bytes: the answer's bytes, exactly n of them; where the answer names fewer, the rest
are free values (R8, D39; log entry 7). -/
def exactly (n d : Nat) (data : List Byte) : List Byte :=
  data.take n ++ freeBytes (n - data.length) d

/-- The data that an answer to request `r` delivers. -/
def deliveredData (r : Request) (d : Nat) (a : Answer) : List Byte :=
  match r with
  | .busRead _ _ n _ => if a.ok then exactly n d a.data else []
  | .busWrite _ _ _ _ => []
  | .create _ => []

/-- How many free values that takes. -/
def deliveredDraws (r : Request) (a : Answer) : Nat :=
  match r with
  | .busRead _ _ n _ => if a.ok then n - a.data.length else 0
  | .busWrite _ _ _ _ => 0
  | .create _ => 0

/-- The answer as the command sees it. -/
def delivered (r : Request) (d : Nat) (a : Answer) : Answer :=
  { a with data := deliveredData r d a }

end Sys2Proof.Machine
end

