-- ==== Sys2Proof/Machine/Handle.lean ====
section
/-! DEFINITION. The handle commands INIT and GETGLOBAL (42_global_handle.md R180, R181). -/

namespace Sys2Proof.Machine

/-- The request sequence of INIT with I2C enabled (R180): one `Create`; HANDLE is written only if it succeeds. -/
def initProc (ps : Params) (_ : Latched) : Proc :=
  createHandle ps.i2cConfig fun h =>
    if h = 0#32 then finishBool false
    else .finish { ok := true, result := 1#32, buf := .keep, newHandle := some h }

/-- INIT (R180): REINIT on a second execution; with I2C disabled it completes in the accepting step. -/
def execInit (s : State) : Out :=
  if s.status.initd then commandFault .reinit s
  else
    let t := s.setStatus { s.status with initd := true }
    if t.params.i2cEnabled then .next (start (initProc t.params (latch t)) (latch t) t)
    else .next (complete true 1#32 t)

/-- GETGLOBAL (R181): RESULT <- HANDLE, OK <- 1, in the accepting step. -/
def execGetglobal (s : State) : Out := .next (succeedNow s.handle s)

end Sys2Proof.Machine
end

