-- ==== Sys2Proof/Machine/RegisterAccess.lean ====
section
/-! DEFINITION. The register-access sequencer's commands (41_register_access.md R136 to R153): for each its request sequence (`…Proc`) and its meaning in the accepting step (`exec…`), which makes the checks in the order of 60_exceptions.md R203 and starts the sequence. -/

namespace Sys2Proof.Machine

/-! ## Shapes shared by the commands -/

/-- A bus command on one bit: BAD_BITPOS before NO_HANDLE (R203). -/
def startBit (w : Width) (p : BitVec 4) (proc : Params → Latched → Proc) (s : State) : Out :=
  if validPos w p.toNat then startBus proc (latch s) s else commandFault .badBitpos s

/-- A bus command on a bitfield: BAD_DESCRIPTOR before NO_HANDLE (R203). -/
def startField (w : Width) (bs : BitVec 4) (len : BitVec 5) (proc : Params → Latched → Proc) (s : State) : Out :=
  if validDesc w bs.toNat len.toNat then startBus proc (latch s) s else commandFault .badDescriptor s

/-- Read-modify-write of a device register: the write is issued only after a successful read (R148 to R151). -/
def modifyReg (w : Width) (o : Latched) (reg : Byte) (f : Nat → Nat) : Proc :=
  readReg w o reg fun r =>
    match r with
    | none => finishBool false
    | some v => writeReg w o reg (f v) finishBool

/-- Read-modify-write of the raw bus value, one stop flag for both requests (R152, R153). -/
def modifyRaw (w : Width) (o : Latched) (stop : Bool) (f : Nat → Nat) : Proc :=
  rawRead w o stop fun r =>
    match r with
    | none => finishBool false
    | some v => rawWrite w o (f v) stop finishBool

/-! ## Register reads and writes -/

/-- RDREG.8 (R136). -/
def rdreg8Proc (reg : Byte) (_ : Params) (o : Latched) : Proc := readReg .w8 o reg finishValue
def execRdreg8 (reg : Byte) (s : State) : Out := startBus (rdreg8Proc reg) (latch s) s

/-- RDREG.16 (R137). -/
def rdreg16Proc (reg : Byte) (_ : Params) (o : Latched) : Proc := readReg .w16 o reg finishValue
def execRdreg16 (reg : Byte) (s : State) : Out := startBus (rdreg16Proc reg) (latch s) s

/-- RDREGS (R138). -/
def rdregsProc (reg : Byte) (_ : Params) (o : Latched) : Proc :=
  busWrite o [reg] false fun ok =>
    if ok then
      busRead o o.cnt.toNat true fun d =>
        match d with
        | some bytes => .finish { ok := true, result := 1#32, buf := .store bytes, newHandle := none }
        | none => .finish { ok := false, result := 0#32, buf := .drawn o.cnt.toNat, newHandle := none }
    else finishBool false
def execRdregs (reg : Byte) (s : State) : Out :=
  if s.params.maxN < s.cnt.toNat then commandFault .countRange s else startBus (rdregsProc reg) (latch s) s

/-- WRREG.8 (R139). -/
def wrreg8Proc (reg : Byte) (_ : Params) (o : Latched) : Proc :=
  writeReg .w8 o reg (operandWord .w8 o.opv) finishBool
def execWrreg8 (reg : Byte) (s : State) : Out := startBus (wrreg8Proc reg) (latch s) s

/-- WRREG.16 (R140). -/
def wrreg16Proc (reg : Byte) (_ : Params) (o : Latched) : Proc :=
  writeReg .w16 o reg (operandWord .w16 o.opv) finishBool
def execWrreg16 (reg : Byte) (s : State) : Out := startBus (wrreg16Proc reg) (latch s) s

/-- WRREGS (R141): a count above MAX_N is a failure with no request, after the NO_HANDLE check (R203). -/
def wrregsProc (reg : Byte) (ps : Params) (o : Latched) : Proc :=
  if ps.maxN < o.cnt.toNat then finishBool false else busWrite o (reg :: o.payload) true finishBool

/-- The free values that reading a payload of this count may use. -/
def payloadDraws (s : State) : Nat := if s.cnt.toNat ≤ s.params.maxN then s.cnt.toNat else 0
def execWrregs (reg : Byte) (s : State) : Out :=
  if s.handle = 0#32 then commandFault .noHandle s
  else
    let o := latchPayload s
    .next (start (wrregsProc reg s.params o) o (s.setDraws (s.draws + payloadDraws s)))

/-! ## Register bit and bitfield reads -/

/-- What RDREGBIT.8 makes of the byte read (R142, READ_BIT8_NORMALIZE). -/
def readBit8 (normalize : Bool) (b p : Nat) : Nat :=
  if normalize then (b >>> p) &&& 1 else b &&& (1 <<< p)

/-- RDREGBIT.8 (R142). -/
def rdregbit8Proc (reg : Byte) (p : BitVec 4) (ps : Params) (o : Latched) : Proc :=
  readReg .w8 o reg fun r => finishValue (r.map fun b => readBit8 ps.readBit8Normalize b p.toNat)
def execRdregbit8 (reg : Byte) (p : BitVec 4) (s : State) : Out := startBit .w8 p (rdregbit8Proc reg p) s

/-- RDREGBIT.16 (R143). -/
def rdregbit16Proc (reg : Byte) (p : BitVec 4) (_ : Params) (o : Latched) : Proc :=
  readReg .w16 o reg fun r => finishValue (r.map fun v => getBit v p.toNat)
def execRdregbit16 (reg : Byte) (p : BitVec 4) (s : State) : Out := startBit .w16 p (rdregbit16Proc reg p) s

/-- RDREGBF.8 (R144). -/
def rdregbf8Proc (reg : Byte) (bs : BitVec 4) (len : BitVec 5) (_ : Params) (o : Latched) : Proc :=
  readReg .w8 o reg fun r => finishValue (r.map fun v => getBits v bs.toNat len.toNat)
def execRdregbf8 (reg : Byte) (bs : BitVec 4) (len : BitVec 5) (s : State) : Out :=
  startField .w8 bs len (rdregbf8Proc reg bs len) s

/-- RDREGBF.16 (R145). -/
def rdregbf16Proc (reg : Byte) (bs : BitVec 4) (len : BitVec 5) (_ : Params) (o : Latched) : Proc :=
  readReg .w16 o reg fun r => finishValue (r.map fun v => getBits v bs.toNat len.toNat)
def execRdregbf16 (reg : Byte) (bs : BitVec 4) (len : BitVec 5) (s : State) : Out :=
  startField .w16 bs len (rdregbf16Proc reg bs len) s

/-- RDBITS.8 (R146). -/
def rdbits8Proc (bs : BitVec 4) (len : BitVec 5) (stop : Bool) (_ : Params) (o : Latched) : Proc :=
  rawRead .w8 o stop fun r => finishValue (r.map fun v => getBits v bs.toNat len.toNat)
def execRdbits8 (bs : BitVec 4) (len : BitVec 5) (stop : Bool) (s : State) : Out :=
  startField .w8 bs len (rdbits8Proc bs len stop) s

/-- RDBITS.16 (R147). -/
def rdbits16Proc (bs : BitVec 4) (len : BitVec 5) (stop : Bool) (_ : Params) (o : Latched) : Proc :=
  rawRead .w16 o stop fun r => finishValue (r.map fun v => getBits v bs.toNat len.toNat)
def execRdbits16 (bs : BitVec 4) (len : BitVec 5) (stop : Bool) (s : State) : Out :=
  startField .w16 bs len (rdbits16Proc bs len stop) s

/-! ## Read-modify-write -/

/-- WRREGBIT.8 (R148). -/
def wrregbit8Proc (reg : Byte) (p : BitVec 4) (d : Bool) (_ : Params) (o : Latched) : Proc :=
  modifyReg .w8 o reg (setBit .w8 d p.toNat)
def execWrregbit8 (reg : Byte) (p : BitVec 4) (d : Bool) (s : State) : Out :=
  startBit .w8 p (wrregbit8Proc reg p d) s

/-- WRREGBIT.16 (R149). -/
def wrregbit16Proc (reg : Byte) (p : BitVec 4) (d : Bool) (_ : Params) (o : Latched) : Proc :=
  modifyReg .w16 o reg (setBit .w16 d p.toNat)
def execWrregbit16 (reg : Byte) (p : BitVec 4) (d : Bool) (s : State) : Out :=
  startBit .w16 p (wrregbit16Proc reg p d) s

/-- WRREGBF.8 (R150). -/
def wrregbf8Proc (reg : Byte) (bs : BitVec 4) (len : BitVec 5) (_ : Params) (o : Latched) : Proc :=
  modifyReg .w8 o reg fun v => setBits .w8 v bs.toNat len.toNat (operandWord .w8 o.opv)
def execWrregbf8 (reg : Byte) (bs : BitVec 4) (len : BitVec 5) (s : State) : Out :=
  startField .w8 bs len (wrregbf8Proc reg bs len) s

/-- WRREGBF.16 (R151). -/
def wrregbf16Proc (reg : Byte) (bs : BitVec 4) (len : BitVec 5) (_ : Params) (o : Latched) : Proc :=
  modifyReg .w16 o reg fun v => setBits .w16 v bs.toNat len.toNat (operandWord .w16 o.opv)
def execWrregbf16 (reg : Byte) (bs : BitVec 4) (len : BitVec 5) (s : State) : Out :=
  startField .w16 bs len (wrregbf16Proc reg bs len) s

/-- WRBITS.8 (R152). -/
def wrbits8Proc (bs : BitVec 4) (len : BitVec 5) (stop : Bool) (_ : Params) (o : Latched) : Proc :=
  modifyRaw .w8 o stop fun v => setBits .w8 v bs.toNat len.toNat (operandWord .w8 o.opv)
def execWrbits8 (bs : BitVec 4) (len : BitVec 5) (stop : Bool) (s : State) : Out :=
  startField .w8 bs len (wrbits8Proc bs len stop) s

/-- WRBITS.16 (R153). -/
def wrbits16Proc (bs : BitVec 4) (len : BitVec 5) (stop : Bool) (_ : Params) (o : Latched) : Proc :=
  modifyRaw .w16 o stop fun v => setBits .w16 v bs.toNat len.toNat (operandWord .w16 o.opv)
def execWrbits16 (bs : BitVec 4) (len : BitVec 5) (stop : Bool) (s : State) : Out :=
  startField .w16 bs len (wrbits16Proc bs len stop) s

end Sys2Proof.Machine
end

