-- ==== Sys2Proof/Machine/Sequencer.lean ====
section
/-! DEFINITION. The sequencer (10_state.md R33, 41_register_access.md R130): what the running command waits for, what an answer of TRANSPORT does, and BLOCK's own turn. -/

namespace Sys2Proof.Machine

/-- The request sequence of a command that runs over several steps; none for the pure commands and GETGLOBAL (R57, D33). -/
def procOf (i : Instr) (ps : Params) (o : Latched) : Option Proc :=
  match i with
  | .getbit8 _ => none
  | .getbit16 _ => none
  | .setbit8 _ _ => none
  | .setbit16 _ _ => none
  | .getbits8 _ _ => none
  | .getbits16 _ _ => none
  | .setbits8 _ _ => none
  | .setbits16 _ _ => none
  | .rdreg8 reg => some (rdreg8Proc reg ps o)
  | .rdreg16 reg => some (rdreg16Proc reg ps o)
  | .rdregs reg => some (rdregsProc reg ps o)
  | .wrreg8 reg => some (wrreg8Proc reg ps o)
  | .wrreg16 reg => some (wrreg16Proc reg ps o)
  | .wrregs reg => some (wrregsProc reg ps o)
  | .rdregbit8 reg p => some (rdregbit8Proc reg p ps o)
  | .rdregbit16 reg p => some (rdregbit16Proc reg p ps o)
  | .rdregbf8 reg bs len => some (rdregbf8Proc reg bs len ps o)
  | .rdregbf16 reg bs len => some (rdregbf16Proc reg bs len ps o)
  | .rdbits8 bs len stop => some (rdbits8Proc bs len stop ps o)
  | .rdbits16 bs len stop => some (rdbits16Proc bs len stop ps o)
  | .wrregbit8 reg p d => some (wrregbit8Proc reg p d ps o)
  | .wrregbit16 reg p d => some (wrregbit16Proc reg p d ps o)
  | .wrregbf8 reg bs len => some (wrregbf8Proc reg bs len ps o)
  | .wrregbf16 reg bs len => some (wrregbf16Proc reg bs len ps o)
  | .wrbits8 bs len stop => some (wrbits8Proc bs len stop ps o)
  | .wrbits16 bs len stop => some (wrbits16Proc bs len stop ps o)
  | .init => some (initProc ps o)
  | .getglobal => none

/-- What is left of the running command; none if SEQ is Idle. -/
def pending (s : State) : Option Proc :=
  match s.seq with
  | .idle => none
  | .running c ops replies =>
    match decode c with
    | .ok i => (procOf i s.params ops).map fun p => p.after replies
    | .illegal _ => none

/-- The request BLOCK waits for an answer to, if any (R33: at most one). -/
def outstanding (s : State) : Option Request :=
  match pending s with
  | some (.request r _) => some r
  | some (.finish _) => none
  | none => none

/-- SEQ with one more answer received. -/
def Seq.received (q : Seq) (a : Answer) : Seq :=
  match q with
  | .idle => .idle
  | .running c ops replies => .running c ops (replies ++ [a])

/-- TRANSPORT answers (R130 steps 2 to 4): BLOCK sends the command's next request, or ends the command. An answer with no
request outstanding is discarded (R201, R220; log entry 8). -/
def takeAnswer (a : Answer) (s : State) : State :=
  match pending s with
  | some (.request r next) =>
    let d := delivered r s.draws a
    advance (next d) ((s.setSeq (s.seq.received d)).setDraws (s.draws + deliveredDraws r a))
  | some (.finish _) => s
  | none => s

/-- BLOCK's own turn: a running command with no request outstanding ends (R141; log entry 10); otherwise nothing happens, and
a command that waits for TRANSPORT stays as it is (R211; log entry 15). -/
def blockTurn (s : State) : State :=
  match pending s with
  | some (.finish f) => applyFinish f s
  | some (.request _ _) => s
  | none => s

end Sys2Proof.Machine
end

