-- ==== Sys2Proof/Machine/Dispatch.lean ====
section
/-! DEFINITION. One arm per command: the step that accepts it (30_encoding.md R79). -/

namespace Sys2Proof.Machine

/-- The meaning of a command whose word has been stored in CMD. -/
def exec (i : Instr) (s : State) : Host.Outcome State Fault Refusal :=
  match i with
  | .getbit8 p => Sys2Proof.Machine.execGetbit8 p s
  | .getbit16 p => Sys2Proof.Machine.execGetbit16 p s
  | .setbit8 d p => Sys2Proof.Machine.execSetbit8 d p s
  | .setbit16 d p => Sys2Proof.Machine.execSetbit16 d p s
  | .getbits8 bs len => Sys2Proof.Machine.execGetbits8 bs len s
  | .getbits16 bs len => Sys2Proof.Machine.execGetbits16 bs len s
  | .setbits8 bs len => Sys2Proof.Machine.execSetbits8 bs len s
  | .setbits16 bs len => Sys2Proof.Machine.execSetbits16 bs len s
  | .rdreg8 reg => Sys2Proof.Machine.execRdreg8 reg s
  | .rdreg16 reg => Sys2Proof.Machine.execRdreg16 reg s
  | .rdregs reg => Sys2Proof.Machine.execRdregs reg s
  | .wrreg8 reg => Sys2Proof.Machine.execWrreg8 reg s
  | .wrreg16 reg => Sys2Proof.Machine.execWrreg16 reg s
  | .wrregs reg => Sys2Proof.Machine.execWrregs reg s
  | .rdregbit8 reg p => Sys2Proof.Machine.execRdregbit8 reg p s
  | .rdregbit16 reg p => Sys2Proof.Machine.execRdregbit16 reg p s
  | .rdregbf8 reg bs len => Sys2Proof.Machine.execRdregbf8 reg bs len s
  | .rdregbf16 reg bs len => Sys2Proof.Machine.execRdregbf16 reg bs len s
  | .rdbits8 bs len stop => Sys2Proof.Machine.execRdbits8 bs len stop s
  | .rdbits16 bs len stop => Sys2Proof.Machine.execRdbits16 bs len stop s
  | .wrregbit8 reg p d => Sys2Proof.Machine.execWrregbit8 reg p d s
  | .wrregbit16 reg p d => Sys2Proof.Machine.execWrregbit16 reg p d s
  | .wrregbf8 reg bs len => Sys2Proof.Machine.execWrregbf8 reg bs len s
  | .wrregbf16 reg bs len => Sys2Proof.Machine.execWrregbf16 reg bs len s
  | .wrbits8 bs len stop => Sys2Proof.Machine.execWrbits8 bs len stop s
  | .wrbits16 bs len stop => Sys2Proof.Machine.execWrbits16 bs len stop s
  | .init => Sys2Proof.Machine.execInit s
  | .getglobal => Sys2Proof.Machine.execGetglobal s

end Sys2Proof.Machine
end

