-- ==== Sys2Proof/Machine/HostPort.lean ====
section
/-! DEFINITION. The host port: the register map (10_state.md R21), which accesses are legal (20_memory.md R51), reads (70_reset_and_hazards.md R224), writes (R22, R25 to R32, 60_exceptions.md R196, R199, R202), the acceptance of a command (30_encoding.md R79), and one step over the next event. -/

namespace Sys2Proof.Machine

/-- A mapped host register (R21). -/
inductive HostReg where
  | cmd
  | status
  | result
  | opw
  | opv
  | dev
  | cnt
  | handle
  | finfo
  | params
  | buf (i : Nat)
deriving DecidableEq, Repr

/-- The register at a byte offset, none if the offset is unmapped or not a multiple of 4 (R21). -/
def regAt (maxN offset : Nat) : Option HostReg :=
  match offset with
  | 0x000 => some .cmd
  | 0x004 => some .status
  | 0x008 => some .result
  | 0x00C => some .opw
  | 0x010 => some .opv
  | 0x014 => some .dev
  | 0x018 => some .cnt
  | 0x01C => some .handle
  | 0x020 => some .finfo
  | 0x024 => some .params
  | _ =>
    if 0x100 ≤ offset ∧ offset % 4 = 0 ∧ (offset - 0x100) / 4 < maxN then some (.buf ((offset - 0x100) / 4))
    else none

/-- The byte offset of a register (R21). -/
def HostReg.offset : HostReg → Nat
  | .cmd => 0x000
  | .status => 0x004
  | .result => 0x008
  | .opw => 0x00C
  | .opv => 0x010
  | .dev => 0x014
  | .cnt => 0x018
  | .handle => 0x01C
  | .finfo => 0x020
  | .params => 0x024
  | .buf i => 0x100 + 4 * i

/-- The register a legal access reaches: 32 bits at a 4-aligned mapped offset (R51); none if the access is illegal. -/
def legalAccess (maxN bits offset : Nat) : Option HostReg :=
  if bits = 32 then regAt maxN offset else none

/-! ## Reads -/

/-- The value of a legal read. While BUSY = 1, RESULT, STATUS.OK and every BUF byte read as any value (R224). -/
def readHostReg (r : HostReg) (s : State) : Word :=
  match r with
  | .cmd => s.cmd
  | .status => statusWord (if s.status.busy then { s.status with ok := Config.freeBit s.draws } else s.status)
  | .result => if s.status.busy then Config.freeWord s.draws else s.result
  | .opw => s.opw.setWidth 32
  | .opv => s.opv.setWidth 32
  | .dev => s.dev.setWidth 32
  | .cnt => s.cnt.setWidth 32
  | .handle => s.handle
  | .finfo => s.finfo
  | .params => paramsWord s.params
  | .buf i => (if s.status.busy then Config.freeByte s.draws else bufByte s.buf i s.draws).setWidth 32

/-- Hand a value to the HOST; each read uses up one free value, whether or not it needs it (log entry 5). -/
def giveHost (v : Word) (s : State) : State := (s.setHostData v).setDraws (s.draws + 1)

/-- A host read (R51, R199): an illegal one returns any value and raises HOST_ACCESS. -/
def hostRead (bits offset : Nat) (s : State) : State :=
  match legalAccess s.params.maxN bits offset with
  | some r => giveHost (readHostReg r s) s
  | none => raiseFault .hostAccess (accessInfo false offset) (giveHost (Config.freeWord s.draws) s)

/-! ## Writes -/

/-- A command word is written to CMD (R22, R79): it is stored, then the command starts or ILLEGAL_CMD is raised. -/
def accept (c : Word) (s : State) : Out :=
  match decode c with
  | .ok i => exec i (s.setCmd c)
  | .illegal _ => commandFault .illegalCmd (s.setCmd c)

/-- A legal write with BUSY = 0 and FAULT = 0: bits a register does not define ignore writes, read-only registers ignore all
(R25 to R32, R51). -/
def writeHostReg (r : HostReg) (v : Word) (s : State) : Out :=
  match r with
  | .cmd => accept v s
  | .status => .next s
  | .result => .next s
  | .opw => .next (s.setOpw (v.setWidth 16))
  | .opv => .next (s.setOpv (v.setWidth 16))
  | .dev => .next (s.setDev (v.setWidth 16))
  | .cnt => .next (s.setCnt (v.setWidth 8))
  | .handle => .next s
  | .finfo => .next s
  | .params => .next s
  | .buf i => .next (s.setBuf (s.buf.write i (v.setWidth 8)))

/-- A host write: ignored while FAULT = 1 (R202), HOST_ACCESS if illegal (R199), BUSY_WRITE while BUSY = 1 (R196). -/
def hostWrite (bits offset : Nat) (v : Word) (s : State) : Out :=
  if s.status.fault then .next s
  else
    match legalAccess s.params.maxN bits offset with
    | none => .next (raiseFault .hostAccess (accessInfo true offset) s)
    | some r =>
      if s.status.busy then .next (raiseFault .busyWrite (accessInfo true offset) s) else writeHostReg r v s

/-! ## One step -/

/-- What an event does. -/
def handleEvent (e : Event) (s : State) : Out :=
  match e with
  | .hostWrite bits offset v => hostWrite bits offset v s
  | .hostRead bits offset => .next (hostRead bits offset s)
  | .answer a => .next (takeAnswer a s)
  | .lateAnswer _ => .next s
  | .block => .next (blockTurn s)
  | .reset => .next (resetEvent s)

/-- One step: the next event, or BLOCK's own turn if no event is listed (log entries 1 and 15). -/
def nextStep (s : State) : Out :=
  match s.env with
  | [] => .next (blockTurn s)
  | e :: rest => handleEvent e (s.setEnv rest)

/-! ## Placing a command -/

/-- SEQ idle, BUSY = 0 and no fault: what R22 asks of the block before it accepts a command. -/
def makeReady (s : State) : State :=
  ((s.setSeq .idle).setStatus { s.status with busy := false, fault := false, fcode := .none }).setFinfo
    (if s.status.fault then 0#32 else s.finfo)

/-- The block ready, and a host write of a table row's word to CMD as the next event (log entry 2). -/
def placeCommand (s : State) (nbits w : Nat) : State :=
  (makeReady s).setEnv (.hostWrite 32 0x000 (tableWord nbits w) :: s.env)

end Sys2Proof.Machine
end

