-- ==== Sys2Proof/Machine/Step.lean ====
section
/-! DEFINITION. The step of BITOPS and the placing of a command as its next event. -/

namespace Sys2Proof.Machine

/-- One step of the machine: one event (log entry 1). -/
def step (s : State) : Host.Outcome State Fault Refusal := nextStep s

/-- `s` with the command of an opcode-table row as the very next thing it runs (log entry 2). -/
def State.withFetchWord (s : State) (nbits w : Nat) : State := placeCommand s nbits w

end Sys2Proof.Machine
end

