-- ==== Sys2Proof/Machine/HostProgram.lean ====
section
/-! DEFINITION. The HOST's own program (30_encoding.md R84): its operations, its temporaries, and how HOST and BLOCK take turns (00_scope.md R3; 20_memory.md R60; log entry 17). `step` does not look at it: to BITOPS a program is the host accesses it makes. -/

namespace Sys2Proof.Machine

/-! ## Expressions and conditions -/

/-- A HOST computation on its temporaries, which are numbered: 32-bit unsigned, wrap-around. -/
inductive HostExpr where
  | const (v : Word)
  | temp (t : Nat)
  | add (a b : HostExpr)
  | sub (a b : HostExpr)
  | shl (a b : HostExpr)
  | or (a b : HostExpr)
  | and (a b : HostExpr)
deriving DecidableEq, Repr

/-- A condition of `if <cond> goto L`. -/
inductive HostCond where
  | eq (a b : HostExpr)
  | ne (a b : HostExpr)
  | lt (a b : HostExpr)
  /-- `t[i] = v`. -/
  | bit (t i : Nat) (v : Bool)
deriving DecidableEq, Repr

/-- Temporary `t`; one that was never assigned is 0 (95_test_vectors.md, "Host temporaries start at 0"). -/
def readTemp (temps : List Word) (t : Nat) : Word := temps.getD t 0#32

/-- Assign temporary `t`. -/
def writeTemp : List Word → Nat → Word → List Word
  | [], 0, v => [v]
  | _ :: rest, 0, v => v :: rest
  | [], t + 1, v => 0#32 :: writeTemp [] t v
  | x :: rest, t + 1, v => x :: writeTemp rest t v

def evalExpr (temps : List Word) : HostExpr → Word
  | .const v => v
  | .temp t => readTemp temps t
  | .add a b => evalExpr temps a + evalExpr temps b
  | .sub a b => evalExpr temps a - evalExpr temps b
  | .shl a b => evalExpr temps a <<< (evalExpr temps b).toNat
  | .or a b => evalExpr temps a ||| evalExpr temps b
  | .and a b => evalExpr temps a &&& evalExpr temps b

def evalCond (temps : List Word) : HostCond → Bool
  | .eq a b => evalExpr temps a == evalExpr temps b
  | .ne a b => evalExpr temps a != evalExpr temps b
  | .lt a b => (evalExpr temps a).ult (evalExpr temps b)
  | .bit t i v => (readTemp temps t).getLsbD i == v

/-! ## Operations -/

/-- An operation of a HOST program. A label is the position of the operation it stands before. -/
inductive HostOp where
  /-- `WR NAME, expr`. -/
  | wr (r : HostReg) (e : HostExpr)
  /-- `RD t, NAME`. -/
  | rd (t : Nat) (r : HostReg)
  /-- `t <- expr`. -/
  | assign (t : Nat) (e : HostExpr)
  /-- `if <cond> goto L`. -/
  | ifGoto (c : HostCond) (l : Nat)
  /-- `goto L`. -/
  | goto (l : Nat)
  /-- `HALT`. -/
  | halt
deriving DecidableEq, Repr

/-- `CMD <syntax>`: `WR CMD, <encoded word>`. -/
def hostCmd (i : Instr) : HostOp := .wr .cmd (.const (encode i))

/-- `WAIT` at position `l`: the loop `L: RD t, STATUS; if t[0] = 1 goto L`. -/
def hostWait (t l : Nat) : List HostOp := [.rd t .status, .ifGoto (.bit t 0 true) l]

/-! ## HOST and BLOCK together -/

/-- The HOST running a program: the position of its next operation and its temporaries. -/
structure HostState where
  pos : Nat
  temps : List Word
deriving DecidableEq, Repr

/-- A HOST with its program, and BITOPS; `block.env` then holds what TRANSPORT and reset do. -/
structure System where
  program : List HostOp
  host : HostState
  block : State
deriving DecidableEq, Repr

/-- The HOST at the start of a program. -/
def System.begin (program : List HostOp) (block : State) : System :=
  { program := program, host := { pos := 0, temps := [] }, block := block }

/-- The HOST has come to `HALT`, or to the end of its program. -/
def System.halted (y : System) : Bool :=
  match y.program[y.host.pos]? with
  | some .halt => true
  | some _ => false
  | none => true

/-- Who moves next. -/
inductive Turn where
  | host
  | block
deriving DecidableEq, Repr

/-- The HOST makes one access, and BITOPS takes it at once (R60: accesses take effect one at a time). -/
def hostAccess (e : Event) (s : State) : Out := step { s with env := e :: s.env }

/-- The HOST with its next operation at `l`. -/
def System.jump (y : System) (l : Nat) : System := { y with host := { y.host with pos := l } }

/-- The HOST after temporary `t` has been assigned. -/
def System.assign (y : System) (t : Nat) (v : Word) : System :=
  { y with host := { y.host with temps := writeTemp y.host.temps t v } }

/-- An outcome of the block, inside the system. -/
def inSystem (o : Out) (next : State → System) : Host.Outcome System Fault Refusal :=
  match o with
  | .next t => .next (next t)
  | .fault r => .fault r
  | .refused r => .refused r

/-- The HOST does its next operation (R84). -/
def hostTurn (y : System) : Host.Outcome System Fault Refusal :=
  let next := y.jump (y.host.pos + 1)
  match y.program[y.host.pos]? with
  | some (.wr r e) =>
    inSystem (hostAccess (.hostWrite 32 r.offset (evalExpr y.host.temps e)) y.block) fun t =>
      { next with block := t }
  | some (.rd t r) =>
    inSystem (hostAccess (.hostRead 32 r.offset) y.block) fun s =>
      { next.assign t s.hostData with block := s }
  | some (.assign t e) => .next (next.assign t (evalExpr y.host.temps e))
  | some (.ifGoto c l) => .next (if evalCond y.host.temps c then y.jump l else next)
  | some (.goto l) => .next (y.jump l)
  | some .halt => .next y
  | none => .next y

/-- One step of HOST and BLOCK together: an operation of the HOST, or the block's next event. -/
def systemStep (turn : Turn) (y : System) : Host.Outcome System Fault Refusal :=
  match turn with
  | .host => hostTurn y
  | .block => inSystem (step y.block) fun t => { y with block := t }

end Sys2Proof.Machine
end

