-- ==== Sys2Proof/Safety.lean ====
section
/-! DEFINITION. The terms claims use: classes of commands (00_scope.md R10), the states a command leaves, the invariant of the machine (10_state.md R33, 60_exceptions.md R200, R202, 42_global_handle.md R182) and the end of a run (70_reset_and_hazards.md R228). -/

namespace Sys2Proof.Machine

/-! ## Classes of commands (R10) -/

/-- R10's classes; INIT is a boolean command that is no bus command. -/
inductive CommandClass where
  | pure
  | value
  | boolean
  | init
  | getglobal
deriving DecidableEq, Repr

def commandClass : Instr → CommandClass
  | .getbit8 _ => .pure
  | .getbit16 _ => .pure
  | .setbit8 _ _ => .pure
  | .setbit16 _ _ => .pure
  | .getbits8 _ _ => .pure
  | .getbits16 _ _ => .pure
  | .setbits8 _ _ => .pure
  | .setbits16 _ _ => .pure
  | .rdreg8 _ => .value
  | .rdreg16 _ => .value
  | .rdregs _ => .boolean
  | .wrreg8 _ => .boolean
  | .wrreg16 _ => .boolean
  | .wrregs _ => .boolean
  | .rdregbit8 _ _ => .value
  | .rdregbit16 _ _ => .value
  | .rdregbf8 _ _ _ => .value
  | .rdregbf16 _ _ _ => .value
  | .rdbits8 _ _ _ => .value
  | .rdbits16 _ _ _ => .value
  | .wrregbit8 _ _ _ => .boolean
  | .wrregbit16 _ _ _ => .boolean
  | .wrregbf8 _ _ _ => .boolean
  | .wrregbf16 _ _ _ => .boolean
  | .wrbits8 _ _ _ => .boolean
  | .wrbits16 _ _ _ => .boolean
  | .init => .init
  | .getglobal => .getglobal

/-- A bus command: OP 0x04 to 0x0D (R10). -/
abbrev isBusCommand (i : Instr) : Prop := commandClass i = .value ∨ commandClass i = .boolean

/-- The failure result of a command (R131, R180): -1 for a value command, 0 for a boolean one. -/
def failureResult (i : Instr) : Word :=
  match commandClass i with
  | .value => 0xFFFFFFFF#32
  | .boolean => 0#32
  | .init => 0#32
  | .pure => 0#32
  | .getglobal => 0#32

/-- The bits of a command word that its row uses: OP, W and RSV, and the fields of R85. -/
def usedBits : Instr → Word
  | .getbit8 _ => 0xFF0003FF#32
  | .getbit16 _ => 0xFF0003FF#32
  | .setbit8 _ _ => 0xFF0083FF#32
  | .setbit16 _ _ => 0xFF0083FF#32
  | .getbits8 _ _ => 0xFF007FFF#32
  | .getbits16 _ _ => 0xFF007FFF#32
  | .setbits8 _ _ => 0xFF007FFF#32
  | .setbits16 _ _ => 0xFF007FFF#32
  | .rdreg8 _ => 0xFFFF003F#32
  | .rdreg16 _ => 0xFFFF003F#32
  | .rdregs _ => 0xFFFF003F#32
  | .wrreg8 _ => 0xFFFF003F#32
  | .wrreg16 _ => 0xFFFF003F#32
  | .wrregs _ => 0xFFFF003F#32
  | .rdregbit8 _ _ => 0xFFFF03FF#32
  | .rdregbit16 _ _ => 0xFFFF03FF#32
  | .rdregbf8 _ _ _ => 0xFFFF7FFF#32
  | .rdregbf16 _ _ _ => 0xFFFF7FFF#32
  | .rdbits8 _ _ _ => 0xFF00FFFF#32
  | .rdbits16 _ _ _ => 0xFF00FFFF#32
  | .wrregbit8 _ _ _ => 0xFFFF83FF#32
  | .wrregbit16 _ _ _ => 0xFFFF83FF#32
  | .wrregbf8 _ _ _ => 0xFFFF7FFF#32
  | .wrregbf16 _ _ _ => 0xFFFF7FFF#32
  | .wrbits8 _ _ _ => 0xFF00FFFF#32
  | .wrbits16 _ _ _ => 0xFF00FFFF#32
  | .init => 0xFF00003F#32
  | .getglobal => 0xFF00003F#32

/-! ## States -/

/-- What R22 asks of the block before a write to CMD starts a command: BUSY = 0, FAULT = 0, and SEQ idle with it (R33). -/
structure State.Ready (s : State) : Prop where
  busy : s.status.busy = false
  fault : s.status.fault = false
  seq : s.seq = .idle

/-- `s` after the entry of a fault from a state in which no command runs (R200): nothing else changes. -/
def State.faulted (s : State) (code : FaultCode) (info : Word) : State :=
  { s with status := { s.status with fault := true, fcode := code }, finfo := info }

/-- `s` after a command that completes at once (R102, R181): RESULT and OK, nothing else. -/
def State.succeeded (s : State) (r : Word) : State :=
  { s with result := r, status := { s.status with ok := true } }

/-- `s` with the command in CMD running and its requests `rs` sent so far by this step (R130 step 1). -/
def State.started (s : State) (o : Latched) (rs : List Request) : State :=
  { s with status := { s.status with busy := true }, seq := .running s.cmd o [], bus := s.bus ++ rs }

/-- `s` after `complete(ok, result)` (R8): BUSY 0, SEQ idle, OK and RESULT. -/
def State.completed (s : State) (ok : Bool) (r : Word) : State :=
  { s with status := { s.status with ok := ok, busy := false }, result := r, seq := .idle }

/-- `s` after the events before `rest` have been taken and the requests `rs` have been sent, nothing else changed. -/
def State.requested (s : State) (rest : List Event) (rs : List Request) : State :=
  { s with env := rest, bus := s.bus ++ rs }

/-- `n` steps. -/
def steps : Nat → State → Out
  | 0, s => .next s
  | n + 1, s =>
    match step s with
    | .next t => steps n t
    | .fault r => .fault r
    | .refused r => .refused r

/-- A successful answer to a write request. -/
def Answer.done : Answer := { ok := true, data := [], handle := 0#32 }

/-- A successful answer to a read request. -/
def Answer.withData (data : List Byte) : Answer := { ok := true, data := data, handle := 0#32 }

/-- An answer to `Create`. -/
def Answer.withHandle (h : Word) : Answer := { ok := true, data := [], handle := h }

/-- The answer fails the request: not ok for a bus request, 0 for `Create` (R190). -/
def Answer.fails (r : Request) (a : Answer) : Prop :=
  match r with
  | .busWrite _ _ _ _ => a.ok = false
  | .busRead _ _ _ _ => a.ok = false
  | .create _ => a.handle = 0#32

/-! ## The invariant -/

/-- What holds of a running command (R33, R77): CMD still holds its word, the latched operands are still in the operand
registers, the word decodes to a command that sends requests, and the command either waits for an answer or is a WRREGS
whose count exceeds MAX_N (R141). A bus command runs only with a handle (R195), INIT only before there is one (R180). -/
structure State.RunningInv (s : State) (c : Word) (o : Latched) (replies : List Answer) : Prop where
  word : c = s.cmd
  latched : o.opw = s.opw ∧ o.opv = s.opv ∧ o.dev = s.dev ∧ o.cnt = s.cnt ∧ o.conn = s.handle
  command : ∃ i, decode c = .ok i ∧
    ((isBusCommand i ∧ s.handle ≠ 0#32) ∨
      (i = .init ∧ s.handle = 0#32 ∧ s.status.initd = true ∧ s.params.i2cEnabled = true)) ∧
    ((∃ r, outstanding s = some r) ∨
      ((∃ reg, i = .wrregs reg) ∧ s.params.maxN < s.cnt.toNat ∧ replies = []))
  count : ∀ reg, decode c = .ok (.rdregs reg) → o.cnt.toNat ≤ s.params.maxN

/-- What every step keeps, from every state that has it. -/
structure State.Inv (s : State) : Prop where
  /-- R5: 1 <= MAX_N <= 64. -/
  params : s.params.wf
  /-- The memory of BUF keeps its canonical form. -/
  bufForm : s.buf.wf
  /-- BUF has the bytes 0 to MAX_N - 1 only (R32). -/
  bufRange : ∀ c ∈ s.buf, c.1 < s.params.maxN
  /-- "SEQ = Running exactly when STATUS.BUSY = 1" (R33). -/
  busy : s.status.busy = true ↔ s.seq ≠ .idle
  /-- A faulted block runs no command (R201, R202). -/
  faultIdle : s.status.fault = true → s.seq = .idle
  /-- FCODE names a fault exactly when there is one (R191). -/
  code : s.status.fault = true ↔ s.status.fcode ≠ .none
  /-- FINFO is written only by a fault (R30). -/
  info : s.status.fault = false → s.finfo = 0#32
  /-- A handle exists only after INIT with I2C enabled (R182). -/
  handle : s.handle ≠ 0#32 → s.status.initd = true ∧ s.params.i2cEnabled = true
  running : ∀ c o replies, s.seq = .running c o replies → s.RunningInv c o replies

/-! ## Host accesses and the end of a run (R228) -/

/-- An access of the HOST. -/
def Event.isHost : Event → Bool
  | .hostWrite _ _ _ => true
  | .hostRead _ _ => true
  | .answer _ => false
  | .lateAnswer _ => false
  | .block => false
  | .reset => false

/-- "the state after its last operation, when BUSY = 0". -/
def System.ended (y : System) : Bool := y.halted && !y.block.status.busy

/-- "the run ends well only if STATUS.FAULT = 0 then". -/
def System.endedWell (y : System) : Bool := y.ended && !y.block.status.fault

end Sys2Proof.Machine
end

