-- ==== Sys2Proof/Certificates/Slice0/Obligations.lean ====
section
/-! DEFINITION. The statements for the provers. Each docstring names the rule of spec/ it formalises; a statement about a next state gives every field of it, so it is the frame too. -/

open Sys2Proof Sys2Proof.Machine

/-! ## Encoding -/

/-- R71, R78, R83: the word of a command decodes to that command, for every value of every operand field. -/
def Obligations.DecodeEncode : Prop :=
  ∀ i : Instr, decode (encode i) = .ok i

/-- R79, R85: a word that decodes to a command agrees with that command's word on every bit the command uses. -/
def Obligations.EncodeDecodeOnUsedBits : Prop :=
  ∀ (c : Word) (i : Instr), decode c = .ok i → encode i = c &&& usedBits i

/-- R81, R85: two words that agree on the bits their command uses decode to the same command. -/
def Obligations.IgnoredFieldsDoNotDecode : Prop :=
  ∀ (c c' : Word) (i : Instr), decode c = .ok i → c &&& usedBits i = c' &&& usedBits i → decode c' = .ok i

/-- R83, R103, R137, R153 and others: words written out in the spec decode to the commands it says they are. -/
def Obligations.WrittenOutWordsDecode : Prop :=
  decode 0x000011C3#32 = .ok (.setbits8 7 4) ∧ decode 0x000001C0#32 = .ok (.getbit8 7) ∧
  decode 0x003B0024#32 = .ok (.rdreg16 0x3B#8) ∧ decode 0x000093ED#32 = .ok (.wrbits16 15 4 true) ∧
  decode 0x006B818B#32 = .ok (.wrregbit8 0x6B#8 6 true) ∧ decode 0x0000000E#32 = .ok .init

/-- R80, R192: exactly the listed words are no command, and the block, ready, answers each with ILLEGAL_CMD: the word is in
CMD and in FINFO, and nothing else changes (R200). -/
def Obligations.IllegalWordsRaiseIllegalCmd : Prop :=
  ∀ c : Word,
    ((∃ why, decode c = .illegal why) ↔
      (c.toNat % 32 ≥ 0x10 ∨ (c.toNat / 32 % 2 = 1 ∧ c.toNat % 32 ∈ [0x05, 0x07, 0x0E, 0x0F]) ∨ c.toNat / 2 ^ 24 ≠ 0)) ∧
    ∀ (s : State) (rest : List Event) (why : IllegalWord), s.Ready → decode c = .illegal why →
      s.env = .hostWrite 32 0x000 c :: rest →
      step s = .next ({ s with env := rest, cmd := c }.faulted .illegalCmd c)

/-! ## Accepting a command -/

/-- R22, R79: when the next event writes a command's word to CMD and the block is ready, the step is the command's meaning on
the state with the word in CMD and the event taken. -/
def Obligations.StepRunsTheDecodedCommand : Prop :=
  ∀ (s : State) (c : Word) (i : Instr) (rest : List Event),
    s.Ready → s.env = .hostWrite 32 0x000 c :: rest → decode c = .ok i →
    step s = exec i { s with env := rest, cmd := c }

/-- Every state has a next state: the model has no stop of its own (R202, R211). -/
def Obligations.EveryStepAnswersANextState : Prop :=
  ∀ s : State, ∃ t, step s = .next t

/-! ## The bitfield unit -/

/-- R101, R111: the four laws, for both widths, over the model's functions. -/
def Obligations.BitfieldLaws : Prop :=
  ∀ (w : Width) (x : Nat), x < 2 ^ w.bits →
    (∀ p, p < w.bits → getBit (setBit w true p x) p = 1 ∧ getBit (setBit w false p x) p = 0) ∧
    (∀ d p q, p < w.bits → q < w.bits → q ≠ p → getBit (setBit w d p x) q = getBit x q) ∧
    ∀ bs len, bs < w.bits → len ≤ bs + 1 →
      (∀ v, v < 2 ^ len → getBits (setBits w x bs len v) bs len = v) ∧
      ∀ v q, v < 2 ^ w.bits → ¬(bs + 1 - len ≤ q ∧ q ≤ bs) → (setBits w x bs len v).testBit q = x.testBit q

/-- R101, R112: each result of the bitfield unit is less than 2^w; a field of length len is less than 2^len. -/
def Obligations.BitfieldResultsFitTheWidth : Prop :=
  ∀ (w : Width) (x : Nat), x < 2 ^ w.bits →
    (∀ p, getBit x p < 2) ∧ (∀ d p, p < w.bits → setBit w d p x < 2 ^ w.bits) ∧
    ∀ bs len, bs < w.bits → len ≤ bs + 1 →
      getBits x bs len < 2 ^ len ∧ ∀ v, v < 2 ^ w.bits → setBits w x bs len v < 2 ^ w.bits

/-- R103, R104: GETBIT gives bit p of OPW as 0 or 1. -/
def Obligations.GetbitReadsTheBit : Prop :=
  ∀ (s : State) (p : BitVec 4),
    (p.toNat < 8 → exec (.getbit8 p) s = .next (s.succeeded (if s.opw.getLsbD p.toNat then 1#32 else 0#32))) ∧
    exec (.getbit16 p) s = .next (s.succeeded (if s.opw.getLsbD p.toNat then 1#32 else 0#32))

/-- R105, R106: SETBIT gives OPW, cut to the width, with bit p equal to d and no other bit changed; OPW itself is not written. -/
def Obligations.SetbitChangesOneBit : Prop :=
  ∀ (s : State) (d : Bool) (p : BitVec 4),
    (p.toNat < 8 → ∃ r, exec (.setbit8 d p) s = .next (s.succeeded r) ∧
      ∀ q, r.getLsbD q = (decide (q < 8) && if q = p.toNat then d else s.opw.getLsbD q)) ∧
    ∃ r, exec (.setbit16 d p) s = .next (s.succeeded r) ∧
      ∀ q, r.getLsbD q = (decide (q < 16) && if q = p.toNat then d else s.opw.getLsbD q)

/-- R107, R108: GETBITS gives the field [bs - len + 1, bs] of OPW, right-justified, every other bit 0. -/
def Obligations.GetbitsExtractsTheField : Prop :=
  ∀ (s : State) (bs : BitVec 4) (len : BitVec 5), len.toNat ≤ bs.toNat + 1 →
    (bs.toNat < 8 → ∃ r, exec (.getbits8 bs len) s = .next (s.succeeded r) ∧
      ∀ q, r.getLsbD q = (decide (q < len.toNat) && s.opw.getLsbD (bs.toNat + 1 - len.toNat + q))) ∧
    ∃ r, exec (.getbits16 bs len) s = .next (s.succeeded r) ∧
      ∀ q, r.getLsbD q = (decide (q < len.toNat) && s.opw.getLsbD (bs.toNat + 1 - len.toNat + q))

/-- R109, R110: SETBITS gives OPW, cut to the width, with the field replaced by the low len bits of OPV. -/
def Obligations.SetbitsReplacesTheField : Prop :=
  ∀ (s : State) (bs : BitVec 4) (len : BitVec 5), len.toNat ≤ bs.toNat + 1 →
    (bs.toNat < 8 → ∃ r, exec (.setbits8 bs len) s = .next (s.succeeded r) ∧
      ∀ q, r.getLsbD q = (decide (q < 8) &&
        if bs.toNat + 1 - len.toNat ≤ q ∧ q ≤ bs.toNat then s.opv.getLsbD (q - (bs.toNat + 1 - len.toNat))
        else s.opw.getLsbD q)) ∧
    ∃ r, exec (.setbits16 bs len) s = .next (s.succeeded r) ∧
      ∀ q, r.getLsbD q = (decide (q < 16) &&
        if bs.toNat + 1 - len.toNat ≤ q ∧ q ≤ bs.toNat then s.opv.getLsbD (q - (bs.toNat + 1 - len.toNat))
        else s.opw.getLsbD q)

/-! ## Register access: each command from its acceptance to its completion -/

/-- R136, R137, R132: index write without stop, read with stop, then RESULT is the register, high byte first, and OK = 1.
The answers are plain successes: the read's answer holds exactly the bytes asked for.
That the accepting step sends the first request already is the model's choice (log entry 11). -/
def Obligations.RdregReturnsTheRegister : Prop :=
  ∀ (s : State) (reg b0 b1 : Byte) (rest : List Event), s.handle ≠ 0#32 →
    (exec (.rdreg8 reg) s = .next (s.started (latch s) [.busWrite s.handle s.dev [reg] false]) ∧
      (decode s.cmd = .ok (.rdreg8 reg) → s.env = .answer .done :: .answer (.withData [b0]) :: rest →
        steps 2 (s.started (latch s) [.busWrite s.handle s.dev [reg] false]) =
          .next ((s.requested rest
              [.busWrite s.handle s.dev [reg] false, .busRead s.handle s.dev 1 true]).completed true
              (b0.setWidth 32)))) ∧
    (exec (.rdreg16 reg) s = .next (s.started (latch s) [.busWrite s.handle s.dev [reg] false]) ∧
      (decode s.cmd = .ok (.rdreg16 reg) → s.env = .answer .done :: .answer (.withData [b0, b1]) :: rest →
        steps 2 (s.started (latch s) [.busWrite s.handle s.dev [reg] false]) =
          .next ((s.requested rest
              [.busWrite s.handle s.dev [reg] false, .busRead s.handle s.dev 2 true]).completed true
              ((b0 ++ b1).setWidth 32))))

/-- R138, R54: with n = CNT <= MAX_N, an index write and a read of n bytes; bus byte k lands in BUF[k], BUF[n..] is unchanged,
and the command succeeds with RESULT = 1. A byte the answer does not name is some byte (D39; the model's reading, log entry 7).
That the accepting step sends the first request already is the model's choice (log entry 11). -/
def Obligations.RdregsFillsTheBuffer : Prop :=
  ∀ (s : State) (reg : Byte) (data : List Byte) (rest : List Event), s.handle ≠ 0#32 → s.cnt.toNat ≤ s.params.maxN →
    exec (.rdregs reg) s = .next (s.started (latch s) [.busWrite s.handle s.dev [reg] false]) ∧
    (decode s.cmd = .ok (.rdregs reg) → s.env = .answer .done :: .answer (.withData data) :: rest →
      ∃ t, steps 2 (s.started (latch s) [.busWrite s.handle s.dev [reg] false]) = .next t ∧
        t = { s.requested rest [.busWrite s.handle s.dev [reg] false, .busRead s.handle s.dev s.cnt.toNat true] with
              buf := t.buf, draws := t.draws }.completed true 1#32 ∧
        (∀ k, k < s.cnt.toNat → ∃ v, t.buf.read k = some v ∧ ∀ u, data[k]? = some u → v = u) ∧
        ∀ k, s.cnt.toNat ≤ k → t.buf.read k = s.buf.read k)

/-- R139, R140, R133: one transaction with stop, index byte first, then the value's bytes, high byte first; RESULT = 1.
That the accepting step sends the first request already is the model's choice (log entry 11). -/
def Obligations.WrregSendsOneTransaction : Prop :=
  ∀ (s : State) (reg : Byte) (rest : List Event), s.handle ≠ 0#32 →
    (exec (.wrreg8 reg) s =
        .next (s.started (latch s) [.busWrite s.handle s.dev [reg, s.opv.extractLsb' 0 8] true]) ∧
      (decode s.cmd = .ok (.wrreg8 reg) → s.env = .answer .done :: rest →
        steps 1 (s.started (latch s) [.busWrite s.handle s.dev [reg, s.opv.extractLsb' 0 8] true]) =
          .next ((s.requested rest
              [.busWrite s.handle s.dev [reg, s.opv.extractLsb' 0 8] true]).completed true 1#32))) ∧
    (exec (.wrreg16 reg) s =
        .next (s.started (latch s)
          [.busWrite s.handle s.dev [reg, s.opv.extractLsb' 8 8, s.opv.extractLsb' 0 8] true]) ∧
      (decode s.cmd = .ok (.wrreg16 reg) → s.env = .answer .done :: rest →
        steps 1 (s.started (latch s)
            [.busWrite s.handle s.dev [reg, s.opv.extractLsb' 8 8, s.opv.extractLsb' 0 8] true]) =
          .next ((s.requested rest
              [.busWrite s.handle s.dev [reg, s.opv.extractLsb' 8 8, s.opv.extractLsb' 0 8] true]).completed true
                1#32)))

/-- R141, R54, R77: with n = CNT <= MAX_N, one transaction: the index byte and n payload bytes, byte k being BUF[k] where it
has a value (what else it may be: the model's reading, log entry 6); RESULT = 1.
That the accepting step sends the first request already is the model's choice (log entry 11). -/
def Obligations.WrregsSendsTheBuffer : Prop :=
  ∀ (s : State) (reg : Byte) (rest : List Event), s.handle ≠ 0#32 → s.cnt.toNat ≤ s.params.maxN →
    ∃ payload, payload.length = s.cnt.toNat ∧
      (∀ k v, k < s.cnt.toNat → s.buf.read k = some v → payload[k]? = some v) ∧
      ∃ t, exec (.wrregs reg) s = .next t ∧
        t = { s with draws := t.draws }.started { latch s with payload := payload }
          [.busWrite s.handle s.dev (reg :: payload) true] ∧
        (decode s.cmd = .ok (.wrregs reg) → s.env = .answer .done :: rest →
          steps 1 t =
            .next ({ s.requested rest [.busWrite s.handle s.dev (reg :: payload) true] with
              draws := t.draws }.completed true 1#32))

/-- R141: a count above MAX_N is a failure with no request and no fault: BUSY is 1, and BLOCK's own turn ends it with
RESULT = 0, OK = 0. That BUSY = 1 lasts until that turn is the model's choice (log entry 10). -/
def Obligations.WrregsBeyondMaxNFails : Prop :=
  ∀ (s : State) (reg : Byte) (rest : List Event), s.handle ≠ 0#32 → s.params.maxN < s.cnt.toNat →
    exec (.wrregs reg) s = .next (s.started (latch s) []) ∧
    (decode s.cmd = .ok (.wrregs reg) → s.env = .block :: rest →
      steps 1 (s.started (latch s) []) = .next ({ s with env := rest }.completed false 0#32))

/-- R142, R143: RDREGBIT.8 gives `1 << p` or 0, or 1 or 0 with READ_BIT8_NORMALIZE; RDREGBIT.16 gives 1 or 0.
That the accepting step sends the first request already is the model's choice (log entry 11). -/
def Obligations.RdregbitReadsTheBit : Prop :=
  ∀ (s : State) (reg b0 b1 : Byte) (p : BitVec 4) (rest : List Event), s.handle ≠ 0#32 →
    (p.toNat < 8 →
      exec (.rdregbit8 reg p) s = .next (s.started (latch s) [.busWrite s.handle s.dev [reg] false]) ∧
      (decode s.cmd = .ok (.rdregbit8 reg p) → s.env = .answer .done :: .answer (.withData [b0]) :: rest →
        steps 2 (s.started (latch s) [.busWrite s.handle s.dev [reg] false]) =
          .next ((s.requested rest
              [.busWrite s.handle s.dev [reg] false, .busRead s.handle s.dev 1 true]).completed true
              (if b0.getLsbD p.toNat then (if s.params.readBit8Normalize then 1#32 else 1#32 <<< p.toNat)
               else 0#32)))) ∧
    (exec (.rdregbit16 reg p) s = .next (s.started (latch s) [.busWrite s.handle s.dev [reg] false]) ∧
      (decode s.cmd = .ok (.rdregbit16 reg p) → s.env = .answer .done :: .answer (.withData [b0, b1]) :: rest →
        steps 2 (s.started (latch s) [.busWrite s.handle s.dev [reg] false]) =
          .next ((s.requested rest
              [.busWrite s.handle s.dev [reg] false, .busRead s.handle s.dev 2 true]).completed true
              (if (b0 ++ b1).getLsbD p.toNat then 1#32 else 0#32))))

/-- R144, R145: RDREGBF gives the field of the register read.
That the accepting step sends the first request already is the model's choice (log entry 11). -/
def Obligations.RdregbfReadsTheField : Prop :=
  ∀ (s : State) (reg b0 b1 : Byte) (bs : BitVec 4) (len : BitVec 5) (rest : List Event),
    s.handle ≠ 0#32 → len.toNat ≤ bs.toNat + 1 →
    (bs.toNat < 8 →
      exec (.rdregbf8 reg bs len) s = .next (s.started (latch s) [.busWrite s.handle s.dev [reg] false]) ∧
      (decode s.cmd = .ok (.rdregbf8 reg bs len) → s.env = .answer .done :: .answer (.withData [b0]) :: rest →
        ∃ r, steps 2 (s.started (latch s) [.busWrite s.handle s.dev [reg] false]) =
            .next ((s.requested rest
                [.busWrite s.handle s.dev [reg] false, .busRead s.handle s.dev 1 true]).completed true
                r) ∧
          ∀ q, r.getLsbD q = (decide (q < len.toNat) && b0.getLsbD (bs.toNat + 1 - len.toNat + q)))) ∧
    (exec (.rdregbf16 reg bs len) s = .next (s.started (latch s) [.busWrite s.handle s.dev [reg] false]) ∧
      (decode s.cmd = .ok (.rdregbf16 reg bs len) → s.env = .answer .done :: .answer (.withData [b0, b1]) :: rest →
        ∃ r, steps 2 (s.started (latch s) [.busWrite s.handle s.dev [reg] false]) =
            .next ((s.requested rest
                [.busWrite s.handle s.dev [reg] false, .busRead s.handle s.dev 2 true]).completed true
                r) ∧
          ∀ q, r.getLsbD q = (decide (q < len.toNat) && (b0 ++ b1).getLsbD (bs.toNat + 1 - len.toNat + q))))

/-- R146, R147, R134: one raw read with the command's stop flag, no index write; RESULT is the field.
That the accepting step sends the raw read already is the model's choice (log entry 11). -/
def Obligations.RdbitsReadsTheRawField : Prop :=
  ∀ (s : State) (b0 b1 : Byte) (bs : BitVec 4) (len : BitVec 5) (stop : Bool) (rest : List Event),
    s.handle ≠ 0#32 → len.toNat ≤ bs.toNat + 1 →
    (bs.toNat < 8 →
      exec (.rdbits8 bs len stop) s = .next (s.started (latch s) [.busRead s.handle s.dev 1 stop]) ∧
      (decode s.cmd = .ok (.rdbits8 bs len stop) → s.env = .answer (.withData [b0]) :: rest →
        ∃ r, steps 1 (s.started (latch s) [.busRead s.handle s.dev 1 stop]) =
            .next ((s.requested rest [.busRead s.handle s.dev 1 stop]).completed true r) ∧
          ∀ q, r.getLsbD q = (decide (q < len.toNat) && b0.getLsbD (bs.toNat + 1 - len.toNat + q)))) ∧
    (exec (.rdbits16 bs len stop) s = .next (s.started (latch s) [.busRead s.handle s.dev 2 stop]) ∧
      (decode s.cmd = .ok (.rdbits16 bs len stop) → s.env = .answer (.withData [b0, b1]) :: rest →
        ∃ r, steps 1 (s.started (latch s) [.busRead s.handle s.dev 2 stop]) =
            .next ((s.requested rest [.busRead s.handle s.dev 2 stop]).completed true r) ∧
          ∀ q, r.getLsbD q = (decide (q < len.toNat) && (b0 ++ b1).getLsbD (bs.toNat + 1 - len.toNat + q))))

/-- R148, R149: index write, read, then one write of the register with bit p equal to d and no other bit changed, also where
the bit has that value already; RESULT = 1.
That the accepting step sends the first request already is the model's choice (log entry 11), as is that each
later request goes out in the step that takes the answer before it. -/
def Obligations.WrregbitWritesTheBit : Prop :=
  ∀ (s : State) (reg b0 b1 : Byte) (p : BitVec 4) (d : Bool) (rest : List Event), s.handle ≠ 0#32 →
    (p.toNat < 8 →
      exec (.wrregbit8 reg p d) s = .next (s.started (latch s) [.busWrite s.handle s.dev [reg] false]) ∧
      (decode s.cmd = .ok (.wrregbit8 reg p d) →
        s.env = .answer .done :: .answer (.withData [b0]) :: .answer .done :: rest →
        ∃ v : Byte, steps 3 (s.started (latch s) [.busWrite s.handle s.dev [reg] false]) =
            .next ((s.requested rest
                [.busWrite s.handle s.dev [reg] false, .busRead s.handle s.dev 1 true,
                  .busWrite s.handle s.dev [reg, v] true]).completed true 1#32) ∧
          ∀ q, q < 8 → v.getLsbD q = if q = p.toNat then d else b0.getLsbD q)) ∧
    (exec (.wrregbit16 reg p d) s = .next (s.started (latch s) [.busWrite s.handle s.dev [reg] false]) ∧
      (decode s.cmd = .ok (.wrregbit16 reg p d) →
        s.env = .answer .done :: .answer (.withData [b0, b1]) :: .answer .done :: rest →
        ∃ vh vl : Byte, steps 3 (s.started (latch s) [.busWrite s.handle s.dev [reg] false]) =
            .next ((s.requested rest
                [.busWrite s.handle s.dev [reg] false, .busRead s.handle s.dev 2 true,
                  .busWrite s.handle s.dev [reg, vh, vl] true]).completed true 1#32) ∧
          ∀ q, q < 16 → (vh ++ vl).getLsbD q = if q = p.toNat then d else (b0 ++ b1).getLsbD q))

/-- R150, R151: index write, read, then one write of the register with the field replaced by the low len bits of OPV.
That the accepting step sends the first request already is the model's choice (log entry 11), as is that each
later request goes out in the step that takes the answer before it. -/
def Obligations.WrregbfWritesTheField : Prop :=
  ∀ (s : State) (reg b0 b1 : Byte) (bs : BitVec 4) (len : BitVec 5) (rest : List Event),
    s.handle ≠ 0#32 → len.toNat ≤ bs.toNat + 1 →
    (bs.toNat < 8 →
      exec (.wrregbf8 reg bs len) s = .next (s.started (latch s) [.busWrite s.handle s.dev [reg] false]) ∧
      (decode s.cmd = .ok (.wrregbf8 reg bs len) →
        s.env = .answer .done :: .answer (.withData [b0]) :: .answer .done :: rest →
        ∃ v : Byte, steps 3 (s.started (latch s) [.busWrite s.handle s.dev [reg] false]) =
            .next ((s.requested rest
                [.busWrite s.handle s.dev [reg] false, .busRead s.handle s.dev 1 true,
                  .busWrite s.handle s.dev [reg, v] true]).completed true 1#32) ∧
          ∀ q, q < 8 → v.getLsbD q =
            if bs.toNat + 1 - len.toNat ≤ q ∧ q ≤ bs.toNat then s.opv.getLsbD (q - (bs.toNat + 1 - len.toNat))
            else b0.getLsbD q)) ∧
    (exec (.wrregbf16 reg bs len) s = .next (s.started (latch s) [.busWrite s.handle s.dev [reg] false]) ∧
      (decode s.cmd = .ok (.wrregbf16 reg bs len) →
        s.env = .answer .done :: .answer (.withData [b0, b1]) :: .answer .done :: rest →
        ∃ vh vl : Byte, steps 3 (s.started (latch s) [.busWrite s.handle s.dev [reg] false]) =
            .next ((s.requested rest
                [.busWrite s.handle s.dev [reg] false, .busRead s.handle s.dev 2 true,
                  .busWrite s.handle s.dev [reg, vh, vl] true]).completed true 1#32) ∧
          ∀ q, q < 16 → (vh ++ vl).getLsbD q =
            if bs.toNat + 1 - len.toNat ≤ q ∧ q ≤ bs.toNat then s.opv.getLsbD (q - (bs.toNat + 1 - len.toNat))
            else (b0 ++ b1).getLsbD q))

/-- R152, R153, R134, R135: a raw read and a raw write, both with the command's stop flag, no index byte.
That the accepting step sends the raw read already, and the step that takes its answer the write, is the model's choice (log
entry 11). -/
def Obligations.WrbitsWritesTheRawField : Prop :=
  ∀ (s : State) (b0 b1 : Byte) (bs : BitVec 4) (len : BitVec 5) (stop : Bool) (rest : List Event),
    s.handle ≠ 0#32 → len.toNat ≤ bs.toNat + 1 →
    (bs.toNat < 8 →
      exec (.wrbits8 bs len stop) s = .next (s.started (latch s) [.busRead s.handle s.dev 1 stop]) ∧
      (decode s.cmd = .ok (.wrbits8 bs len stop) →
        s.env = .answer (.withData [b0]) :: .answer .done :: rest →
        ∃ v : Byte, steps 2 (s.started (latch s) [.busRead s.handle s.dev 1 stop]) =
            .next ((s.requested rest
                [.busRead s.handle s.dev 1 stop, .busWrite s.handle s.dev [v] stop]).completed true 1#32) ∧
          ∀ q, q < 8 → v.getLsbD q =
            if bs.toNat + 1 - len.toNat ≤ q ∧ q ≤ bs.toNat then s.opv.getLsbD (q - (bs.toNat + 1 - len.toNat))
            else b0.getLsbD q)) ∧
    (exec (.wrbits16 bs len stop) s = .next (s.started (latch s) [.busRead s.handle s.dev 2 stop]) ∧
      (decode s.cmd = .ok (.wrbits16 bs len stop) →
        s.env = .answer (.withData [b0, b1]) :: .answer .done :: rest →
        ∃ vh vl : Byte, steps 2 (s.started (latch s) [.busRead s.handle s.dev 2 stop]) =
            .next ((s.requested rest
                [.busRead s.handle s.dev 2 stop, .busWrite s.handle s.dev [vh, vl] stop]).completed true 1#32) ∧
          ∀ q, q < 16 → (vh ++ vl).getLsbD q =
            if bs.toNat + 1 - len.toNat ≤ q ∧ q ≤ bs.toNat then s.opv.getLsbD (q - (bs.toNat + 1 - len.toNat))
            else (b0 ++ b1).getLsbD q))

/-- R154: a WRREGBF and a following RDREGBF of the same register and descriptor, every answer a success, the second read
returning the bytes the first command wrote: RESULT is the low len bits of OPV. Both widths; `sent` is what was written. The
HOST's only accesses are the two writes of CMD, with no read between them: narrower than R154. That each answer is one step and
sends the next request in it is the model's choice (log entries 1, 11). -/
def Obligations.FieldWriteThenReadRoundTrip : Prop :=
  ∀ (w : Width) (s t : State) (reg : Byte) (old sent : List Byte) (bs : BitVec 4) (len : BitVec 5) (rest : List Event),
    s.Ready → s.handle ≠ 0#32 → bs.toNat < w.bits → len.toNat ≤ bs.toNat + 1 → old.length = w.bytes →
    s.env =
      [.hostWrite 32 0x000 (encode (match w with
          | .w8 => .wrregbf8 reg bs len
          | .w16 => .wrregbf16 reg bs len)),
        .answer .done, .answer (.withData old), .answer .done,
        .hostWrite 32 0x000 (encode (match w with
          | .w8 => .rdregbf8 reg bs len
          | .w16 => .rdregbf16 reg bs len)),
        .answer .done, .answer (.withData sent)] ++ rest →
    steps 4 s = .next t → t.bus.getLast? = some (.busWrite s.handle s.dev (reg :: sent) true) →
    ∃ u, steps 3 t = .next u ∧ u.status.ok = true ∧ u.status.busy = false ∧ u.status.fault = false ∧
      u.result.toNat = s.opv.toNat % 2 ^ len.toNat

/-! ## The handle -/

/-- R180: INIT, its first time: with I2C disabled it succeeds in the accepting step and creates nothing; with I2C enabled it
sends one `Create`, and HANDLE becomes the answer unless that is 0, which is a failure. That the accepting step sends the
`Create` already is the model's choice (log entry 11). -/
def Obligations.InitCreatesTheHandle : Prop :=
  ∀ (s : State) (h : Word) (rest : List Event), s.status.initd = false →
    (s.params.i2cEnabled = false →
      exec .init s = .next ({ s with status := { s.status with initd := true } }.completed true 1#32)) ∧
    (s.params.i2cEnabled = true →
      exec .init s =
        .next ({ s with status := { s.status with initd := true } }.started (latch s) [.create s.params.i2cConfig]) ∧
      (decode s.cmd = .ok .init → s.env = .answer (.withHandle h) :: rest →
        (h ≠ 0#32 →
          steps 1 ({ s with status := { s.status with initd := true } }.started (latch s) [.create s.params.i2cConfig]) =
            .next ({ s.requested rest [.create s.params.i2cConfig] with
              handle := h, status := { s.status with initd := true } }.completed true 1#32)) ∧
        (h = 0#32 →
          steps 1 ({ s with status := { s.status with initd := true } }.started (latch s) [.create s.params.i2cConfig]) =
            .next ({ s.requested rest [.create s.params.i2cConfig] with
              status := { s.status with initd := true } }.completed false 0#32))))

/-- R181: GETGLOBAL gives HANDLE, in the accepting step. -/
def Obligations.GetglobalReturnsTheHandle : Prop :=
  ∀ s : State, exec .getglobal s = .next (s.succeeded s.handle)

/-- R197: a second INIT raises REINIT and does nothing else. -/
def Obligations.SecondInitRaisesReinit : Prop :=
  ∀ s : State, s.Ready → s.status.initd = true → exec .init s = .next (s.faulted .reinit s.cmd)

/-- R182, R29: only the answer to INIT's `Create` and reset write HANDLE; once there is a handle no event but reset changes it;
and with I2C disabled there is none. -/
def Obligations.HandleIsCreatedAtMostOnce : Prop :=
  ∀ s t : State, s.Inv → step s = .next t →
    (t.handle ≠ s.handle →
      s.env.head? = some .reset ∨
      ∃ c o replies a, s.seq = .running c o replies ∧ decode c = .ok .init ∧ s.env.head? = some (.answer a)) ∧
    (s.handle ≠ 0#32 → s.env.head? ≠ some .reset → t.handle = s.handle) ∧
    (s.params.i2cEnabled = false → t.handle = 0#32)

/-! ## Faults -/

/-- R200, R201, R202: the fault entry. With FAULT = 1 nothing is recorded; with no command running only FAULT, FCODE and FINFO
change; a running command is abandoned, BUSY <- 0, and of BUF at most the bytes an outstanding RDREGS data read may have
touched change (which bytes those are is the model's reading, log entry 9). -/
def Obligations.FaultEntry : Prop :=
  ∀ (s : State) (code : FaultCode) (info : Word),
    (s.status.fault = true → raiseFault code info s = s) ∧
    (s.status.fault = false → s.seq = .idle → raiseFault code info s = s.faulted code info) ∧
    (s.status.fault = false → s.seq ≠ .idle →
      (raiseFault code info s =
        { s with
          status := { s.status with busy := false }
          seq := .idle
          buf := (raiseFault code info s).buf
          draws := (raiseFault code info s).draws }.faulted code info) ∧
      (touchedBytes s.seq = 0 → (raiseFault code info s).buf = s.buf) ∧
      ∀ a, touchedBytes s.seq ≤ a → (raiseFault code info s).buf.read a = s.buf.read a)

/-- R202: once FAULT = 1 every host write is ignored, a legal read returns the register, an illegal read changes nothing either,
no event but reset clears FAULT or changes FCODE and FINFO, and a run that ends so does not end well. -/
def Obligations.FaultPersistsUntilReset : Prop :=
  ∀ (s : State) (e : Event) (rest : List Event), s.status.fault = true → s.seq = .idle → s.env = e :: rest →
    (∀ bits off v, e = .hostWrite bits off v → step s = .next { s with env := rest }) ∧
    (∀ off r, e = .hostRead 32 off → regAt s.params.maxN off = some r →
      step s = .next { s with env := rest, hostData := readHostReg r s, draws := s.draws + 1 }) ∧
    (∀ bits off, e = .hostRead bits off →
      ∃ v, step s = .next { s with env := rest, hostData := v, draws := s.draws + 1 }) ∧
    (e ≠ .reset → ∃ t, step s = .next t ∧ t.status = s.status ∧ t.finfo = s.finfo) ∧
    (e = .reset → ∃ t, step s = .next t ∧ t.status.fault = false) ∧
    ∀ y : System, y.block = s → y.endedWell = false

/-- R196, R201: a legal host write while BUSY = 1 has no other effect than to raise BUSY_WRITE with FINFO
`(1 << 31) | offset`, which abandons the running command (for the touched BUF bytes: log entry 9). -/
def Obligations.WriteWhileBusyRaisesBusyWrite : Prop :=
  ∀ (s : State) (off : Nat) (v : Word) (rest : List Event),
    s.status.busy = true → s.status.fault = false → s.seq ≠ .idle →
    (off % 4 = 0 ∧ (off ≤ 0x24 ∨ (0x100 ≤ off ∧ off < 0x100 + 4 * s.params.maxN))) → s.params.wf →
    s.env = .hostWrite 32 off v :: rest →
    ∃ t, step s = .next t ∧
      t = { s with
        env := rest
        status := { s.status with busy := false }
        seq := .idle
        buf := t.buf
        draws := t.draws }.faulted .busyWrite (BitVec.ofNat 32 (2 ^ 31 + off)) ∧
      (touchedBytes s.seq = 0 → t.buf = s.buf ∧ t.draws = s.draws) ∧
      ∀ a, touchedBytes s.seq ≤ a → t.buf.read a = s.buf.read a

/-- R51, R199, R201: an access that does not move 32 bits, is not 4-aligned or is not mapped raises HOST_ACCESS with FINFO
`(is_write << 31) | offset[11:0]`; a write does nothing else, a read returns some value; a running command is abandoned (for
the touched BUF bytes: log entry 9). -/
def Obligations.IllegalAccessRaisesHostAccess : Prop :=
  ∀ (s : State) (bits off : Nat) (v : Word) (rest : List Event),
    s.status.fault = false → (s.seq = .idle → s.status.busy = false) →
    ¬(bits = 32 ∧ off % 4 = 0 ∧ (off ≤ 0x24 ∨ (0x100 ≤ off ∧ off < 0x100 + 4 * s.params.maxN))) →
    (s.env = .hostWrite bits off v :: rest →
      ∃ t, step s = .next t ∧
        t = { s with
          env := rest
          status := { s.status with busy := false }
          seq := .idle
          buf := t.buf
          draws := t.draws }.faulted .hostAccess (BitVec.ofNat 32 (2 ^ 31 + off % 2 ^ 12)) ∧
        (touchedBytes s.seq = 0 → t.buf = s.buf) ∧
        ∀ a, touchedBytes s.seq ≤ a → t.buf.read a = s.buf.read a) ∧
    (s.env = .hostRead bits off :: rest →
      ∃ t, step s = .next t ∧
        t = { s with
          env := rest
          status := { s.status with busy := false }
          seq := .idle
          buf := t.buf
          hostData := t.hostData
          draws := t.draws }.faulted .hostAccess (BitVec.ofNat 32 (off % 2 ^ 12)) ∧
        (touchedBytes s.seq = 0 → t.buf = s.buf) ∧
        ∀ a, touchedBytes s.seq ≤ a → t.buf.read a = s.buf.read a)

/-- R194: at width 8 a bit position of 8 or more raises BAD_BITPOS, before NO_HANDLE and before any other effect (R201); at
width 16 every encodable position is valid. -/
def Obligations.BadBitPositionFaults : Prop :=
  (∀ (s : State) (reg : Byte) (p : BitVec 4) (d : Bool), s.Ready → 8 ≤ p.toNat →
    exec (.getbit8 p) s = .next (s.faulted .badBitpos s.cmd) ∧
    exec (.setbit8 d p) s = .next (s.faulted .badBitpos s.cmd) ∧
    exec (.rdregbit8 reg p) s = .next (s.faulted .badBitpos s.cmd) ∧
    exec (.wrregbit8 reg p d) s = .next (s.faulted .badBitpos s.cmd)) ∧
  ∀ (reg : Byte) (p : BitVec 4) (d : Bool),
    (Instr.getbit16 p).wellFormed = true ∧ (Instr.setbit16 d p).wellFormed = true ∧
    (Instr.rdregbit16 reg p).wellFormed = true ∧ (Instr.wrregbit16 reg p d).wellFormed = true

/-- R193: a descriptor with bs >= w or len > bs + 1 raises BAD_DESCRIPTOR, before NO_HANDLE and before any other effect (R201). -/
def Obligations.BadDescriptorFaults : Prop :=
  ∀ (s : State) (reg : Byte) (bs : BitVec 4) (len : BitVec 5) (stop : Bool), s.Ready →
    (8 ≤ bs.toNat ∨ bs.toNat + 1 < len.toNat →
      exec (.getbits8 bs len) s = .next (s.faulted .badDescriptor s.cmd) ∧
      exec (.setbits8 bs len) s = .next (s.faulted .badDescriptor s.cmd) ∧
      exec (.rdregbf8 reg bs len) s = .next (s.faulted .badDescriptor s.cmd) ∧
      exec (.rdbits8 bs len stop) s = .next (s.faulted .badDescriptor s.cmd) ∧
      exec (.wrregbf8 reg bs len) s = .next (s.faulted .badDescriptor s.cmd) ∧
      exec (.wrbits8 bs len stop) s = .next (s.faulted .badDescriptor s.cmd)) ∧
    (16 ≤ bs.toNat ∨ bs.toNat + 1 < len.toNat →
      exec (.getbits16 bs len) s = .next (s.faulted .badDescriptor s.cmd) ∧
      exec (.setbits16 bs len) s = .next (s.faulted .badDescriptor s.cmd) ∧
      exec (.rdregbf16 reg bs len) s = .next (s.faulted .badDescriptor s.cmd) ∧
      exec (.rdbits16 bs len stop) s = .next (s.faulted .badDescriptor s.cmd) ∧
      exec (.wrregbf16 reg bs len) s = .next (s.faulted .badDescriptor s.cmd) ∧
      exec (.wrbits16 bs len stop) s = .next (s.faulted .badDescriptor s.cmd))

/-- R195: a bus command whose operands are valid raises NO_HANDLE while HANDLE = 0; WRREGS also with a count above MAX_N. -/
def Obligations.BusCommandWithoutHandleFaults : Prop :=
  ∀ (s : State) (i : Instr), s.Ready → s.handle = 0#32 → isBusCommand i → i.wellFormed = true →
    (∀ reg, i = .rdregs reg → s.cnt.toNat ≤ s.params.maxN) →
    exec i s = .next (s.faulted .noHandle s.cmd)

/-- R198, R203: RDREGS with CNT > MAX_N raises COUNT_RANGE, whether or not there is a handle. -/
def Obligations.RdregsBeyondMaxNRaisesCountRange : Prop :=
  ∀ (s : State) (reg : Byte), s.Ready → s.params.maxN < s.cnt.toNat →
    exec (.rdregs reg) s = .next (s.faulted .countRange s.cmd)

/-- R190, R130, R131: an answer that fails the outstanding request ends the command with its failure result in that step: no
further request, no fault, BUSY = 0; of BUF only the bytes of a failed RDREGS data read may change (R138). -/
def Obligations.TransportFailureEndsTheCommand : Prop :=
  ∀ (s : State) (c : Word) (o : Latched) (replies : List Answer) (i : Instr) (r : Request) (a : Answer)
    (rest : List Event),
    s.seq = .running c o replies → decode c = .ok i → outstanding s = some r → a.fails r → s.env = .answer a :: rest →
    ∃ t, step s = .next t ∧
      t = { s with env := rest, buf := t.buf, draws := t.draws }.completed false (failureResult i) ∧
      (touchedBytes s.seq = 0 → t.buf = s.buf ∧ t.draws = s.draws) ∧
      (∀ k, touchedBytes s.seq ≤ k → t.buf.read k = s.buf.read k) ∧
      (s.status.fault = false → t.Ready)

/-! ## The host's registers -/

/-- R25 to R28: with BUSY = 0 and FAULT = 0 a write to OPW, OPV or DEV stores bits 15:0, a write to CNT bits 7:0, and changes
nothing else. -/
def Obligations.OperandRegisterWrites : Prop :=
  ∀ (s : State) (v : Word) (rest : List Event), s.status.busy = false → s.status.fault = false →
    (s.env = .hostWrite 32 0x00C v :: rest → step s = .next { s with env := rest, opw := v.extractLsb' 0 16 }) ∧
    (s.env = .hostWrite 32 0x010 v :: rest → step s = .next { s with env := rest, opv := v.extractLsb' 0 16 }) ∧
    (s.env = .hostWrite 32 0x014 v :: rest → step s = .next { s with env := rest, dev := v.extractLsb' 0 16 }) ∧
    (s.env = .hostWrite 32 0x018 v :: rest → step s = .next { s with env := rest, cnt := v.extractLsb' 0 8 })

/-- R51: with BUSY = 0 a write to STATUS, RESULT, HANDLE, FINFO or PARAMS is ignored. -/
def Obligations.ReadOnlyWritesAreIgnored : Prop :=
  ∀ (s : State) (off : Nat) (v : Word) (rest : List Event), s.status.busy = false →
    off ∈ [0x004, 0x008, 0x01C, 0x020, 0x024] → s.env = .hostWrite 32 off v :: rest →
    step s = .next { s with env := rest }

/-- R32, R21: with BUSY = 0 and FAULT = 0 a write at 0x100 + 4*i, i < MAX_N, gives BUF[i] bits 7:0 of the value and changes no
other byte and nothing else; the canonical form of BUF stays. -/
def Obligations.BufWritesOneByte : Prop :=
  ∀ (s : State) (i : Nat) (v : Word) (rest : List Event), s.status.busy = false → s.status.fault = false →
    i < s.params.maxN → s.buf.wf → s.env = .hostWrite 32 (0x100 + 4 * i) v :: rest →
    ∃ t, step s = .next t ∧ t = { s with env := rest, buf := t.buf } ∧ t.buf.wf ∧
      t.buf.read i = some (v.extractLsb' 0 8) ∧ ∀ a, a ≠ i → t.buf.read a = s.buf.read a

/-- R59, R21 to R32: a legal host read changes nothing but what the HOST holds (and the model's counter of free values); with
BUSY = 0 it returns the register, its undefined bits 0, STATUS and PARAMS bit by bit; BUF[i] reads as a byte with bits 31:8
zero, which is the byte it holds if it was written, and some byte otherwise (V1, V10). -/
def Obligations.HostReadsReturnTheRegisters : Prop :=
  ∀ (s : State) (off : Nat) (rest : List Event), s.env = .hostRead 32 off :: rest →
    (off % 4 = 0 ∧ (off ≤ 0x24 ∨ (0x100 ≤ off ∧ off < 0x100 + 4 * s.params.maxN))) →
    ∃ v : Word, step s = .next { s with env := rest, hostData := v, draws := s.draws + 1 } ∧
      (s.status.busy = false →
        (off = 0x000 → v = s.cmd) ∧
        (off = 0x004 →
          v.getLsbD 0 = false ∧ v.getLsbD 1 = s.status.ok ∧ v.getLsbD 2 = s.status.fault ∧
          v.getLsbD 3 = s.status.initd ∧ v.extractLsb' 4 4 = 0#4 ∧ v.extractLsb' 8 4 = s.status.fcode.code ∧
          v.extractLsb' 12 20 = 0#20) ∧
        (off = 0x008 → v = s.result) ∧ (off = 0x00C → v = s.opw.setWidth 32) ∧ (off = 0x010 → v = s.opv.setWidth 32) ∧
        (off = 0x014 → v = s.dev.setWidth 32) ∧ (off = 0x018 → v = s.cnt.setWidth 32) ∧ (off = 0x01C → v = s.handle) ∧
        (off = 0x020 → v = s.finfo) ∧
        (off = 0x024 →
          v.extractLsb' 0 8 = BitVec.ofNat 8 s.params.maxN ∧ v.getLsbD 8 = s.params.readBit8Normalize ∧
          v.getLsbD 9 = s.params.i2cEnabled ∧ v.extractLsb' 10 22 = 0#22) ∧
        ∀ i, off = 0x100 + 4 * i → ∃ b : Byte, v = b.setWidth 32 ∧ ∀ u, s.buf.read i = some u → b = u)

/-- R224: a host read while BUSY = 1 returns the exact value of every register and field but RESULT, STATUS.OK and BUF, and
changes no state of the block. -/
def Obligations.ReadsWhileBusy : Prop :=
  ∀ (s : State) (off : Nat) (rest : List Event), s.status.busy = true → s.env = .hostRead 32 off :: rest →
    (off % 4 = 0 ∧ (off ≤ 0x24 ∨ (0x100 ≤ off ∧ off < 0x100 + 4 * s.params.maxN))) →
    ∃ v : Word, step s = .next { s with env := rest, hostData := v, draws := s.draws + 1 } ∧
      (off = 0x000 → v = s.cmd) ∧
      (off = 0x004 →
        v.getLsbD 0 = true ∧ v.getLsbD 2 = s.status.fault ∧ v.getLsbD 3 = s.status.initd ∧
        v.extractLsb' 8 4 = s.status.fcode.code ∧ v.extractLsb' 4 4 = 0#4 ∧ v.extractLsb' 12 20 = 0#20) ∧
      (off = 0x00C → v = s.opw.setWidth 32) ∧ (off = 0x010 → v = s.opv.setWidth 32) ∧
      (off = 0x014 → v = s.dev.setWidth 32) ∧ (off = 0x018 → v = s.cnt.setWidth 32) ∧ (off = 0x01C → v = s.handle) ∧
      (off = 0x020 → v = s.finfo) ∧ (off = 0x024 → v = paramsWord s.params)

/-! ## Reset -/

/-- R220, R34: reset in any state, also while a command runs; an answer that comes afterwards to the abandoned request is
discarded. The parameters stay (R31); that the model's own fields stay is the model's choice (log entry 14). -/
def Obligations.ResetEventSetsEveryRegister : Prop :=
  ∀ (s : State) (a : Answer) (rest : List Event),
    (s.env = .reset :: rest →
      step s = .next
        { cmd := 0#32, status := { busy := false, ok := false, fault := false, initd := false, fcode := .none },
          result := 0#32, opw := 0#16, opv := 0#16, dev := 0#16, cnt := 0#8, handle := 0#32, finfo := 0#32,
          params := s.params, buf := [], seq := .idle, env := rest, bus := s.bus, hostData := s.hostData,
          draws := s.draws }) ∧
    (s.env = .reset :: .answer a :: rest →
      ∃ t, step s = .next t ∧ step t = .next { t with env := rest }) ∧
    (s.env = .lateAnswer a :: rest → step s = .next { s with env := rest })

/-- R34, R221: the state after reset, for every choice of parameters; no BUF byte has a value. The model's own fields and the
reference configuration are the model's choice (log entries 1, 3, 5, 13). -/
def Obligations.ResetState : Prop :=
  ∀ p : Params,
    (State.resetWith p).Ready ∧ (State.resetWith p).status.initd = false ∧ (State.resetWith p).status.ok = false ∧
    (State.resetWith p).status.fcode = .none ∧ (State.resetWith p).cmd = 0#32 ∧ (State.resetWith p).result = 0#32 ∧
    (State.resetWith p).opw = 0#16 ∧ (State.resetWith p).opv = 0#16 ∧ (State.resetWith p).dev = 0#16 ∧
    (State.resetWith p).cnt = 0#8 ∧ (State.resetWith p).handle = 0#32 ∧ (State.resetWith p).finfo = 0#32 ∧
    (State.resetWith p).params = p ∧ (∀ a, (State.resetWith p).buf.read a = none) ∧
    State.reset = State.resetWith Config.reference

/-! ## Whole-machine rules -/

/-- R33, R32, R182, R191, R200 to R202: every step keeps the invariant, from every state that has it. -/
def Obligations.InvariantIsKept : Prop :=
  ∀ s t : State, s.Inv → step s = .next t → t.Inv

/-- R34: the state after reset has the invariant, for every legal choice of parameters. -/
def Obligations.ResetHasTheInvariant : Prop :=
  (∀ p : Params, p.wf → (State.resetWith p).Inv) ∧ State.reset.Inv

/-- R31, R183: no step changes the parameters. -/
def Obligations.ParametersAreConstant : Prop :=
  ∀ s t : State, step s = .next t → t.params = s.params

/-- R155, R25 to R28, R32: OPW, OPV, DEV and CNT change only by a host write to them or by reset; BUF changes only by a host
write to BUF, by reset, or by a running RDREGS. -/
def Obligations.OnlyTheHostWritesOperands : Prop :=
  ∀ s t : State, step s = .next t → s.env.head? ≠ some .reset →
    (t.opw ≠ s.opw → ∃ v, s.env.head? = some (.hostWrite 32 0x00C v)) ∧
    (t.opv ≠ s.opv → ∃ v, s.env.head? = some (.hostWrite 32 0x010 v)) ∧
    (t.dev ≠ s.dev → ∃ v, s.env.head? = some (.hostWrite 32 0x014 v)) ∧
    (t.cnt ≠ s.cnt → ∃ v, s.env.head? = some (.hostWrite 32 0x018 v)) ∧
    (t.buf ≠ s.buf →
      (∃ i v, i < s.params.maxN ∧ s.env.head? = some (.hostWrite 32 (0x100 + 4 * i) v)) ∨
      ∃ c o replies reg, s.seq = .running c o replies ∧ decode c = .ok (.rdregs reg))

/-- R58, R60, R155: a step sends at most one request, and only a step that leaves a command running sends one; that request is
then the one outstanding. In which step a request is sent is the model's choice (log entry 11). -/
def Obligations.OneRequestAtATime : Prop :=
  ∀ s t : State, s.Inv → step s = .next t →
    t.bus = s.bus ∨
    ∃ r, t.bus = s.bus ++ [r] ∧ t.status.busy = true ∧ outstanding t = some r

/-- R24: RESULT changes only by reset or in a step that leaves no command running and raises no fault, so only as a command
completes. -/
def Obligations.ResultChangesOnlyAtCompletion : Prop :=
  ∀ s t : State, s.Inv → step s = .next t → t.result ≠ s.result → s.env.head? ≠ some .reset →
    t.status.busy = false ∧ t.status.fault = false ∧
    ((∃ c i, s.env.head? = some (.hostWrite 32 0x000 c) ∧ decode c = .ok i ∧ ¬ isBusCommand i) ∨ s.status.busy = true)

/-- R64, R33: while a command runs, its word and its latched operands stay; every step either keeps them or ends the command. -/
def Obligations.RunningCommandIsFixed : Prop :=
  ∀ (s t : State) (c : Word) (o : Latched) (replies : List Answer),
    s.Inv → s.seq = .running c o replies → step s = .next t →
    t.seq = .idle ∨ (t.cmd = s.cmd ∧ (t.seq = .running c o replies ∨ ∃ a, t.seq = .running c o (replies ++ [a])))

/-- R211: a command that waits for TRANSPORT keeps waiting, BUSY = 1, as long as no answer, no host write, no illegal access and
no reset comes: with no event, at BLOCK's turn, at a late answer and at every legal host read, of a register or of a BUF byte. -/
def Obligations.WithoutAnAnswerTheCommandWaits : Prop :=
  ∀ (s t : State) (r : Request), s.status.busy = true → outstanding s = some r → step s = .next t →
    (s.env = [] ∨ s.env.head? = some .block ∨ (∃ a, s.env.head? = some (.lateAnswer a)) ∨
      ∃ off, s.env.head? = some (.hostRead 32 off) ∧
        (off % 4 = 0 ∧ (off ≤ 0x24 ∨ (0x100 ≤ off ∧ off < 0x100 + 4 * s.params.maxN)))) →
    t.status.busy = true ∧ t.seq = s.seq ∧ outstanding t = some r ∧ t.bus = s.bus

/-- R131, R226: when a value command completes, RESULT = -1 exactly when OK = 0. -/
def Obligations.SentinelAgreesWithOk : Prop :=
  ∀ (s t : State) (c : Word) (o : Latched) (replies : List Answer) (i : Instr) (a : Answer),
    s.seq = .running c o replies → decode c = .ok i → commandClass i = .value →
    s.env.head? = some (.answer a) → step s = .next t → t.seq = .idle →
    (t.result = 0xFFFFFFFF#32 ↔ t.status.ok = false)

/-- R228, R130, R211: a running command that waits for TRANSPORT completes within three answers, whatever they are, with BUSY = 0
and no fault. That an answer is one step, which sends the next request, is the model's choice (log entries 1, 11). -/
def Obligations.AnsweredCommandCompletes : Prop :=
  ∀ (s : State) (a b c : Answer) (rest : List Event),
    s.Inv → s.status.busy = true → outstanding s ≠ none →
    s.env = .answer a :: .answer b :: .answer c :: rest →
    ∃ k t, k ≤ 3 ∧ steps k s = .next t ∧ t.status.busy = false ∧ t.status.fault = false

/-! ## The HOST's program -/

/-- R84: a HOST computation, a jump and HALT touch no BITOPS register; the program itself never changes. -/
def Obligations.HostComputationTouchesNoRegister : Prop :=
  ∀ (y : System) (op : HostOp), y.program[y.host.pos]? = some op → (∀ r e, op ≠ .wr r e) → (∀ t r, op ≠ .rd t r) →
    ∃ z, systemStep .host y = .next z ∧ z.block = y.block ∧ z.program = y.program

/-- R84, R59: `WAIT` (two operations, the first at the HOST's position) goes back to its start while BUSY = 1 and goes on when
BUSY = 0; temporary t then holds a word whose bit 0 is BUSY; the read changes nothing in BITOPS but what the HOST holds and the
model's counter of free values. How the HOST is laid out is the model's choice (log entry 17). -/
def Obligations.WaitEndsWhenNotBusy : Prop :=
  ∀ (y : System) (t : Nat),
    y.program[y.host.pos]? = some (.rd t .status) →
    y.program[y.host.pos + 1]? = some (.ifGoto (.bit t 0 true) y.host.pos) →
    ∃ x z, systemStep .host y = .next x ∧ systemStep .host x = .next z ∧
      z.host.pos = (if y.block.status.busy then y.host.pos else y.host.pos + 2) ∧
      (readTemp z.host.temps t).getLsbD 0 = y.block.status.busy ∧
      (∀ u, u ≠ t → readTemp z.host.temps u = readTemp y.host.temps u) ∧
      z.program = y.program ∧
      z.block = { y.block with hostData := z.block.hostData, draws := y.block.draws + 1 }
end

