-- ==== Sys2Proof/Laws/Memory.lean ====
section
/-! SUPPORT. The laws of the byte memory of BUF: a read after a write, and that every operation keeps the canonical form. -/

namespace Sys2Proof.Machine

@[simp] theorem Memory.read_nil (a : Nat) : Memory.read [] a = none := rfl

theorem Memory.read_cons (b : Nat) (v : Byte) (m : Memory) (a : Nat) :
    Memory.read ((b, v) :: m) a = if b = a then some v else m.read a := rfl

/-- A read after a write: the value written there, and every other byte as before. -/
theorem Memory.read_write (m : Memory) (a k : Nat) (v : Byte) :
    (m.write a v).read k = if k = a then some v else m.read k := by
  induction m with
  | nil => simp only [Memory.write, Memory.read_cons, eq_comm]
  | cons x m ih =>
    obtain ⟨b, u⟩ := x
    simp only [Memory.write]
    by_cases hlt : a < b
    · simp only [hlt, if_true, Memory.read_cons, eq_comm]
    · by_cases heq : a = b
      · subst heq
        simp only [lt_irrefl, if_false, if_true, Memory.read_cons]
        by_cases hk : a = k <;> simp [hk, eq_comm]
      · simp only [hlt, heq, if_false, Memory.read_cons, ih]
        by_cases hk : b = k
        · subst hk
          simp [Ne.symm heq]
        · simp [hk]

@[simp] theorem Memory.read_write_same (m : Memory) (a : Nat) (v : Byte) : (m.write a v).read a = some v := by
  simp [Memory.read_write]

theorem Memory.read_write_other (m : Memory) {a k : Nat} (v : Byte) (h : k ≠ a) : (m.write a v).read k = m.read k := by
  simp [Memory.read_write, h]

/-- What a written memory lists: the cell written and cells it listed before. -/
theorem Memory.mem_write {m : Memory} {a : Nat} {v : Byte} {c : Host.Cell} (h : c ∈ m.write a v) :
    c = (a, v) ∨ c ∈ m := by
  induction m with
  | nil => simpa [Memory.write] using h
  | cons x m ih =>
    obtain ⟨b, u⟩ := x
    simp only [Memory.write] at h
    split at h
    · simpa using h
    · split at h
      · rcases List.mem_cons.mp h with h | h
        · exact .inl h
        · exact .inr (List.mem_cons_of_mem _ h)
      · rcases List.mem_cons.mp h with h | h
        · exact .inr (h ▸ List.mem_cons_self)
        · exact (ih h).imp id (List.mem_cons_of_mem _)

/-- A write keeps the canonical form. -/
theorem Memory.write_wf {m : Memory} (h : m.wf) (a : Nat) (v : Byte) : (m.write a v).wf := by
  induction m with
  | nil => simp [Memory.write, Memory.wf]
  | cons x m ih =>
    obtain ⟨b, u⟩ := x
    obtain ⟨hx, hm⟩ := List.pairwise_cons.mp h
    simp only [Memory.write]
    split
    · rename_i hlt
      refine List.pairwise_cons.mpr ⟨fun c hc => ?_, h⟩
      rcases List.mem_cons.mp hc with rfl | hc
      · exact hlt
      · exact lt_trans hlt (hx c hc)
    · rename_i hge
      split
      · rename_i heq
        subst heq
        exact List.pairwise_cons.mpr ⟨hx, hm⟩
      · rename_i hne
        refine List.pairwise_cons.mpr ⟨fun c hc => ?_, ih hm⟩
        rcases Memory.mem_write hc with rfl | hc
        · show b < a
          omega
        · exact hx c hc

/-- Storing keeps the canonical form. -/
theorem Memory.store_wf (vs : List Byte) : ∀ {m : Memory} (i : Nat), m.wf → (m.store i vs).wf := by
  induction vs with
  | nil => intro m i h; exact h
  | cons v vs ih => intro m i h; exact ih (i + 1) (Memory.write_wf h i v)

/-- What a memory lists after a store: cells inside the stored range and cells it listed before. -/
theorem Memory.mem_store (vs : List Byte) :
    ∀ {m : Memory} {i : Nat} {c : Host.Cell}, c ∈ m.store i vs → (i ≤ c.1 ∧ c.1 < i + vs.length) ∨ c ∈ m := by
  induction vs with
  | nil => intro m i c h; exact .inr h
  | cons v vs ih =>
    intro m i c h
    rcases ih (i := i + 1) h with h | h
    · left; simp only [List.length_cons]; omega
    · rcases Memory.mem_write h with rfl | h
      · left; simp
      · exact .inr h

/-- A read after a store, inside and outside the stored bytes. -/
theorem Memory.read_store (vs : List Byte) :
    ∀ (m : Memory) (i k : Nat),
      (m.store i vs).read k = if i ≤ k ∧ k < i + vs.length then vs[k - i]? else m.read k := by
  induction vs with
  | nil =>
    intro m i k
    have : ¬(i ≤ k ∧ k < i + ([] : List Byte).length) := by simp
    simp only [this, if_false]; rfl
  | cons v vs ih =>
    intro m i k
    show ((m.write i v).store (i + 1) vs).read k = _
    rw [ih, Memory.read_write]
    by_cases hk : k = i
    · subst hk
      simp
    · by_cases h : i + 1 ≤ k ∧ k < i + 1 + vs.length
      · have h' : i ≤ k ∧ k < i + (v :: vs).length := by simp only [List.length_cons]; omega
        have e : k - i = (k - (i + 1)) + 1 := by omega
        simp only [h, h', and_self, if_true, e, List.getElem?_cons_succ]
      · have h' : ¬(i ≤ k ∧ k < i + (v :: vs).length) := by simp only [List.length_cons]; omega
        simp only [h, h', if_false, hk]

@[simp] theorem freeBytes_length (n d : Nat) : (freeBytes n d).length = n := by simp [freeBytes]

@[simp] theorem memRead_length (m : Memory) (n d : Nat) : (memRead m n d).length = n := by simp [memRead]

/-- A byte that has a value is read as that value. -/
theorem memRead_value {m : Memory} {n d k : Nat} {v : Byte} (hk : k < n) (h : m.read k = some v) :
    (memRead m n d)[k]? = some v := by
  simp [memRead, bufByte, hk, h]

end Sys2Proof.Machine
end

