-- ==== Sys2Proof/Laws/State.lean ====
section
/-! SUPPORT. One lemma per field per update of State, so that no proof unfolds a record update. -/

namespace Sys2Proof.Machine

/-! ### setCmd -/

@[simp] theorem State.setCmd_cmd (s : State) (v : Word) : (s.setCmd v).cmd = v := rfl
@[simp] theorem State.setCmd_status (s : State) (v : Word) : (s.setCmd v).status = s.status := rfl
@[simp] theorem State.setCmd_result (s : State) (v : Word) : (s.setCmd v).result = s.result := rfl
@[simp] theorem State.setCmd_opw (s : State) (v : Word) : (s.setCmd v).opw = s.opw := rfl
@[simp] theorem State.setCmd_opv (s : State) (v : Word) : (s.setCmd v).opv = s.opv := rfl
@[simp] theorem State.setCmd_dev (s : State) (v : Word) : (s.setCmd v).dev = s.dev := rfl
@[simp] theorem State.setCmd_cnt (s : State) (v : Word) : (s.setCmd v).cnt = s.cnt := rfl
@[simp] theorem State.setCmd_handle (s : State) (v : Word) : (s.setCmd v).handle = s.handle := rfl
@[simp] theorem State.setCmd_finfo (s : State) (v : Word) : (s.setCmd v).finfo = s.finfo := rfl
@[simp] theorem State.setCmd_params (s : State) (v : Word) : (s.setCmd v).params = s.params := rfl
@[simp] theorem State.setCmd_buf (s : State) (v : Word) : (s.setCmd v).buf = s.buf := rfl
@[simp] theorem State.setCmd_seq (s : State) (v : Word) : (s.setCmd v).seq = s.seq := rfl
@[simp] theorem State.setCmd_env (s : State) (v : Word) : (s.setCmd v).env = s.env := rfl
@[simp] theorem State.setCmd_bus (s : State) (v : Word) : (s.setCmd v).bus = s.bus := rfl
@[simp] theorem State.setCmd_hostData (s : State) (v : Word) : (s.setCmd v).hostData = s.hostData := rfl
@[simp] theorem State.setCmd_draws (s : State) (v : Word) : (s.setCmd v).draws = s.draws := rfl

/-! ### setStatus -/

@[simp] theorem State.setStatus_cmd (s : State) (v : Status) : (s.setStatus v).cmd = s.cmd := rfl
@[simp] theorem State.setStatus_status (s : State) (v : Status) : (s.setStatus v).status = v := rfl
@[simp] theorem State.setStatus_result (s : State) (v : Status) : (s.setStatus v).result = s.result := rfl
@[simp] theorem State.setStatus_opw (s : State) (v : Status) : (s.setStatus v).opw = s.opw := rfl
@[simp] theorem State.setStatus_opv (s : State) (v : Status) : (s.setStatus v).opv = s.opv := rfl
@[simp] theorem State.setStatus_dev (s : State) (v : Status) : (s.setStatus v).dev = s.dev := rfl
@[simp] theorem State.setStatus_cnt (s : State) (v : Status) : (s.setStatus v).cnt = s.cnt := rfl
@[simp] theorem State.setStatus_handle (s : State) (v : Status) : (s.setStatus v).handle = s.handle := rfl
@[simp] theorem State.setStatus_finfo (s : State) (v : Status) : (s.setStatus v).finfo = s.finfo := rfl
@[simp] theorem State.setStatus_params (s : State) (v : Status) : (s.setStatus v).params = s.params := rfl
@[simp] theorem State.setStatus_buf (s : State) (v : Status) : (s.setStatus v).buf = s.buf := rfl
@[simp] theorem State.setStatus_seq (s : State) (v : Status) : (s.setStatus v).seq = s.seq := rfl
@[simp] theorem State.setStatus_env (s : State) (v : Status) : (s.setStatus v).env = s.env := rfl
@[simp] theorem State.setStatus_bus (s : State) (v : Status) : (s.setStatus v).bus = s.bus := rfl
@[simp] theorem State.setStatus_hostData (s : State) (v : Status) : (s.setStatus v).hostData = s.hostData := rfl
@[simp] theorem State.setStatus_draws (s : State) (v : Status) : (s.setStatus v).draws = s.draws := rfl

/-! ### setResult -/

@[simp] theorem State.setResult_cmd (s : State) (v : Word) : (s.setResult v).cmd = s.cmd := rfl
@[simp] theorem State.setResult_status (s : State) (v : Word) : (s.setResult v).status = s.status := rfl
@[simp] theorem State.setResult_result (s : State) (v : Word) : (s.setResult v).result = v := rfl
@[simp] theorem State.setResult_opw (s : State) (v : Word) : (s.setResult v).opw = s.opw := rfl
@[simp] theorem State.setResult_opv (s : State) (v : Word) : (s.setResult v).opv = s.opv := rfl
@[simp] theorem State.setResult_dev (s : State) (v : Word) : (s.setResult v).dev = s.dev := rfl
@[simp] theorem State.setResult_cnt (s : State) (v : Word) : (s.setResult v).cnt = s.cnt := rfl
@[simp] theorem State.setResult_handle (s : State) (v : Word) : (s.setResult v).handle = s.handle := rfl
@[simp] theorem State.setResult_finfo (s : State) (v : Word) : (s.setResult v).finfo = s.finfo := rfl
@[simp] theorem State.setResult_params (s : State) (v : Word) : (s.setResult v).params = s.params := rfl
@[simp] theorem State.setResult_buf (s : State) (v : Word) : (s.setResult v).buf = s.buf := rfl
@[simp] theorem State.setResult_seq (s : State) (v : Word) : (s.setResult v).seq = s.seq := rfl
@[simp] theorem State.setResult_env (s : State) (v : Word) : (s.setResult v).env = s.env := rfl
@[simp] theorem State.setResult_bus (s : State) (v : Word) : (s.setResult v).bus = s.bus := rfl
@[simp] theorem State.setResult_hostData (s : State) (v : Word) : (s.setResult v).hostData = s.hostData := rfl
@[simp] theorem State.setResult_draws (s : State) (v : Word) : (s.setResult v).draws = s.draws := rfl

/-! ### setOpw -/

@[simp] theorem State.setOpw_cmd (s : State) (v : Half) : (s.setOpw v).cmd = s.cmd := rfl
@[simp] theorem State.setOpw_status (s : State) (v : Half) : (s.setOpw v).status = s.status := rfl
@[simp] theorem State.setOpw_result (s : State) (v : Half) : (s.setOpw v).result = s.result := rfl
@[simp] theorem State.setOpw_opw (s : State) (v : Half) : (s.setOpw v).opw = v := rfl
@[simp] theorem State.setOpw_opv (s : State) (v : Half) : (s.setOpw v).opv = s.opv := rfl
@[simp] theorem State.setOpw_dev (s : State) (v : Half) : (s.setOpw v).dev = s.dev := rfl
@[simp] theorem State.setOpw_cnt (s : State) (v : Half) : (s.setOpw v).cnt = s.cnt := rfl
@[simp] theorem State.setOpw_handle (s : State) (v : Half) : (s.setOpw v).handle = s.handle := rfl
@[simp] theorem State.setOpw_finfo (s : State) (v : Half) : (s.setOpw v).finfo = s.finfo := rfl
@[simp] theorem State.setOpw_params (s : State) (v : Half) : (s.setOpw v).params = s.params := rfl
@[simp] theorem State.setOpw_buf (s : State) (v : Half) : (s.setOpw v).buf = s.buf := rfl
@[simp] theorem State.setOpw_seq (s : State) (v : Half) : (s.setOpw v).seq = s.seq := rfl
@[simp] theorem State.setOpw_env (s : State) (v : Half) : (s.setOpw v).env = s.env := rfl
@[simp] theorem State.setOpw_bus (s : State) (v : Half) : (s.setOpw v).bus = s.bus := rfl
@[simp] theorem State.setOpw_hostData (s : State) (v : Half) : (s.setOpw v).hostData = s.hostData := rfl
@[simp] theorem State.setOpw_draws (s : State) (v : Half) : (s.setOpw v).draws = s.draws := rfl

/-! ### setOpv -/

@[simp] theorem State.setOpv_cmd (s : State) (v : Half) : (s.setOpv v).cmd = s.cmd := rfl
@[simp] theorem State.setOpv_status (s : State) (v : Half) : (s.setOpv v).status = s.status := rfl
@[simp] theorem State.setOpv_result (s : State) (v : Half) : (s.setOpv v).result = s.result := rfl
@[simp] theorem State.setOpv_opw (s : State) (v : Half) : (s.setOpv v).opw = s.opw := rfl
@[simp] theorem State.setOpv_opv (s : State) (v : Half) : (s.setOpv v).opv = v := rfl
@[simp] theorem State.setOpv_dev (s : State) (v : Half) : (s.setOpv v).dev = s.dev := rfl
@[simp] theorem State.setOpv_cnt (s : State) (v : Half) : (s.setOpv v).cnt = s.cnt := rfl
@[simp] theorem State.setOpv_handle (s : State) (v : Half) : (s.setOpv v).handle = s.handle := rfl
@[simp] theorem State.setOpv_finfo (s : State) (v : Half) : (s.setOpv v).finfo = s.finfo := rfl
@[simp] theorem State.setOpv_params (s : State) (v : Half) : (s.setOpv v).params = s.params := rfl
@[simp] theorem State.setOpv_buf (s : State) (v : Half) : (s.setOpv v).buf = s.buf := rfl
@[simp] theorem State.setOpv_seq (s : State) (v : Half) : (s.setOpv v).seq = s.seq := rfl
@[simp] theorem State.setOpv_env (s : State) (v : Half) : (s.setOpv v).env = s.env := rfl
@[simp] theorem State.setOpv_bus (s : State) (v : Half) : (s.setOpv v).bus = s.bus := rfl
@[simp] theorem State.setOpv_hostData (s : State) (v : Half) : (s.setOpv v).hostData = s.hostData := rfl
@[simp] theorem State.setOpv_draws (s : State) (v : Half) : (s.setOpv v).draws = s.draws := rfl

/-! ### setDev -/

@[simp] theorem State.setDev_cmd (s : State) (v : Half) : (s.setDev v).cmd = s.cmd := rfl
@[simp] theorem State.setDev_status (s : State) (v : Half) : (s.setDev v).status = s.status := rfl
@[simp] theorem State.setDev_result (s : State) (v : Half) : (s.setDev v).result = s.result := rfl
@[simp] theorem State.setDev_opw (s : State) (v : Half) : (s.setDev v).opw = s.opw := rfl
@[simp] theorem State.setDev_opv (s : State) (v : Half) : (s.setDev v).opv = s.opv := rfl
@[simp] theorem State.setDev_dev (s : State) (v : Half) : (s.setDev v).dev = v := rfl
@[simp] theorem State.setDev_cnt (s : State) (v : Half) : (s.setDev v).cnt = s.cnt := rfl
@[simp] theorem State.setDev_handle (s : State) (v : Half) : (s.setDev v).handle = s.handle := rfl
@[simp] theorem State.setDev_finfo (s : State) (v : Half) : (s.setDev v).finfo = s.finfo := rfl
@[simp] theorem State.setDev_params (s : State) (v : Half) : (s.setDev v).params = s.params := rfl
@[simp] theorem State.setDev_buf (s : State) (v : Half) : (s.setDev v).buf = s.buf := rfl
@[simp] theorem State.setDev_seq (s : State) (v : Half) : (s.setDev v).seq = s.seq := rfl
@[simp] theorem State.setDev_env (s : State) (v : Half) : (s.setDev v).env = s.env := rfl
@[simp] theorem State.setDev_bus (s : State) (v : Half) : (s.setDev v).bus = s.bus := rfl
@[simp] theorem State.setDev_hostData (s : State) (v : Half) : (s.setDev v).hostData = s.hostData := rfl
@[simp] theorem State.setDev_draws (s : State) (v : Half) : (s.setDev v).draws = s.draws := rfl

/-! ### setCnt -/

@[simp] theorem State.setCnt_cmd (s : State) (v : Byte) : (s.setCnt v).cmd = s.cmd := rfl
@[simp] theorem State.setCnt_status (s : State) (v : Byte) : (s.setCnt v).status = s.status := rfl
@[simp] theorem State.setCnt_result (s : State) (v : Byte) : (s.setCnt v).result = s.result := rfl
@[simp] theorem State.setCnt_opw (s : State) (v : Byte) : (s.setCnt v).opw = s.opw := rfl
@[simp] theorem State.setCnt_opv (s : State) (v : Byte) : (s.setCnt v).opv = s.opv := rfl
@[simp] theorem State.setCnt_dev (s : State) (v : Byte) : (s.setCnt v).dev = s.dev := rfl
@[simp] theorem State.setCnt_cnt (s : State) (v : Byte) : (s.setCnt v).cnt = v := rfl
@[simp] theorem State.setCnt_handle (s : State) (v : Byte) : (s.setCnt v).handle = s.handle := rfl
@[simp] theorem State.setCnt_finfo (s : State) (v : Byte) : (s.setCnt v).finfo = s.finfo := rfl
@[simp] theorem State.setCnt_params (s : State) (v : Byte) : (s.setCnt v).params = s.params := rfl
@[simp] theorem State.setCnt_buf (s : State) (v : Byte) : (s.setCnt v).buf = s.buf := rfl
@[simp] theorem State.setCnt_seq (s : State) (v : Byte) : (s.setCnt v).seq = s.seq := rfl
@[simp] theorem State.setCnt_env (s : State) (v : Byte) : (s.setCnt v).env = s.env := rfl
@[simp] theorem State.setCnt_bus (s : State) (v : Byte) : (s.setCnt v).bus = s.bus := rfl
@[simp] theorem State.setCnt_hostData (s : State) (v : Byte) : (s.setCnt v).hostData = s.hostData := rfl
@[simp] theorem State.setCnt_draws (s : State) (v : Byte) : (s.setCnt v).draws = s.draws := rfl

/-! ### setHandle -/

@[simp] theorem State.setHandle_cmd (s : State) (v : Word) : (s.setHandle v).cmd = s.cmd := rfl
@[simp] theorem State.setHandle_status (s : State) (v : Word) : (s.setHandle v).status = s.status := rfl
@[simp] theorem State.setHandle_result (s : State) (v : Word) : (s.setHandle v).result = s.result := rfl
@[simp] theorem State.setHandle_opw (s : State) (v : Word) : (s.setHandle v).opw = s.opw := rfl
@[simp] theorem State.setHandle_opv (s : State) (v : Word) : (s.setHandle v).opv = s.opv := rfl
@[simp] theorem State.setHandle_dev (s : State) (v : Word) : (s.setHandle v).dev = s.dev := rfl
@[simp] theorem State.setHandle_cnt (s : State) (v : Word) : (s.setHandle v).cnt = s.cnt := rfl
@[simp] theorem State.setHandle_handle (s : State) (v : Word) : (s.setHandle v).handle = v := rfl
@[simp] theorem State.setHandle_finfo (s : State) (v : Word) : (s.setHandle v).finfo = s.finfo := rfl
@[simp] theorem State.setHandle_params (s : State) (v : Word) : (s.setHandle v).params = s.params := rfl
@[simp] theorem State.setHandle_buf (s : State) (v : Word) : (s.setHandle v).buf = s.buf := rfl
@[simp] theorem State.setHandle_seq (s : State) (v : Word) : (s.setHandle v).seq = s.seq := rfl
@[simp] theorem State.setHandle_env (s : State) (v : Word) : (s.setHandle v).env = s.env := rfl
@[simp] theorem State.setHandle_bus (s : State) (v : Word) : (s.setHandle v).bus = s.bus := rfl
@[simp] theorem State.setHandle_hostData (s : State) (v : Word) : (s.setHandle v).hostData = s.hostData := rfl
@[simp] theorem State.setHandle_draws (s : State) (v : Word) : (s.setHandle v).draws = s.draws := rfl

/-! ### setFinfo -/

@[simp] theorem State.setFinfo_cmd (s : State) (v : Word) : (s.setFinfo v).cmd = s.cmd := rfl
@[simp] theorem State.setFinfo_status (s : State) (v : Word) : (s.setFinfo v).status = s.status := rfl
@[simp] theorem State.setFinfo_result (s : State) (v : Word) : (s.setFinfo v).result = s.result := rfl
@[simp] theorem State.setFinfo_opw (s : State) (v : Word) : (s.setFinfo v).opw = s.opw := rfl
@[simp] theorem State.setFinfo_opv (s : State) (v : Word) : (s.setFinfo v).opv = s.opv := rfl
@[simp] theorem State.setFinfo_dev (s : State) (v : Word) : (s.setFinfo v).dev = s.dev := rfl
@[simp] theorem State.setFinfo_cnt (s : State) (v : Word) : (s.setFinfo v).cnt = s.cnt := rfl
@[simp] theorem State.setFinfo_handle (s : State) (v : Word) : (s.setFinfo v).handle = s.handle := rfl
@[simp] theorem State.setFinfo_finfo (s : State) (v : Word) : (s.setFinfo v).finfo = v := rfl
@[simp] theorem State.setFinfo_params (s : State) (v : Word) : (s.setFinfo v).params = s.params := rfl
@[simp] theorem State.setFinfo_buf (s : State) (v : Word) : (s.setFinfo v).buf = s.buf := rfl
@[simp] theorem State.setFinfo_seq (s : State) (v : Word) : (s.setFinfo v).seq = s.seq := rfl
@[simp] theorem State.setFinfo_env (s : State) (v : Word) : (s.setFinfo v).env = s.env := rfl
@[simp] theorem State.setFinfo_bus (s : State) (v : Word) : (s.setFinfo v).bus = s.bus := rfl
@[simp] theorem State.setFinfo_hostData (s : State) (v : Word) : (s.setFinfo v).hostData = s.hostData := rfl
@[simp] theorem State.setFinfo_draws (s : State) (v : Word) : (s.setFinfo v).draws = s.draws := rfl

/-! ### setBuf -/

@[simp] theorem State.setBuf_cmd (s : State) (v : Memory) : (s.setBuf v).cmd = s.cmd := rfl
@[simp] theorem State.setBuf_status (s : State) (v : Memory) : (s.setBuf v).status = s.status := rfl
@[simp] theorem State.setBuf_result (s : State) (v : Memory) : (s.setBuf v).result = s.result := rfl
@[simp] theorem State.setBuf_opw (s : State) (v : Memory) : (s.setBuf v).opw = s.opw := rfl
@[simp] theorem State.setBuf_opv (s : State) (v : Memory) : (s.setBuf v).opv = s.opv := rfl
@[simp] theorem State.setBuf_dev (s : State) (v : Memory) : (s.setBuf v).dev = s.dev := rfl
@[simp] theorem State.setBuf_cnt (s : State) (v : Memory) : (s.setBuf v).cnt = s.cnt := rfl
@[simp] theorem State.setBuf_handle (s : State) (v : Memory) : (s.setBuf v).handle = s.handle := rfl
@[simp] theorem State.setBuf_finfo (s : State) (v : Memory) : (s.setBuf v).finfo = s.finfo := rfl
@[simp] theorem State.setBuf_params (s : State) (v : Memory) : (s.setBuf v).params = s.params := rfl
@[simp] theorem State.setBuf_buf (s : State) (v : Memory) : (s.setBuf v).buf = v := rfl
@[simp] theorem State.setBuf_seq (s : State) (v : Memory) : (s.setBuf v).seq = s.seq := rfl
@[simp] theorem State.setBuf_env (s : State) (v : Memory) : (s.setBuf v).env = s.env := rfl
@[simp] theorem State.setBuf_bus (s : State) (v : Memory) : (s.setBuf v).bus = s.bus := rfl
@[simp] theorem State.setBuf_hostData (s : State) (v : Memory) : (s.setBuf v).hostData = s.hostData := rfl
@[simp] theorem State.setBuf_draws (s : State) (v : Memory) : (s.setBuf v).draws = s.draws := rfl

/-! ### setSeq -/

@[simp] theorem State.setSeq_cmd (s : State) (v : Seq) : (s.setSeq v).cmd = s.cmd := rfl
@[simp] theorem State.setSeq_status (s : State) (v : Seq) : (s.setSeq v).status = s.status := rfl
@[simp] theorem State.setSeq_result (s : State) (v : Seq) : (s.setSeq v).result = s.result := rfl
@[simp] theorem State.setSeq_opw (s : State) (v : Seq) : (s.setSeq v).opw = s.opw := rfl
@[simp] theorem State.setSeq_opv (s : State) (v : Seq) : (s.setSeq v).opv = s.opv := rfl
@[simp] theorem State.setSeq_dev (s : State) (v : Seq) : (s.setSeq v).dev = s.dev := rfl
@[simp] theorem State.setSeq_cnt (s : State) (v : Seq) : (s.setSeq v).cnt = s.cnt := rfl
@[simp] theorem State.setSeq_handle (s : State) (v : Seq) : (s.setSeq v).handle = s.handle := rfl
@[simp] theorem State.setSeq_finfo (s : State) (v : Seq) : (s.setSeq v).finfo = s.finfo := rfl
@[simp] theorem State.setSeq_params (s : State) (v : Seq) : (s.setSeq v).params = s.params := rfl
@[simp] theorem State.setSeq_buf (s : State) (v : Seq) : (s.setSeq v).buf = s.buf := rfl
@[simp] theorem State.setSeq_seq (s : State) (v : Seq) : (s.setSeq v).seq = v := rfl
@[simp] theorem State.setSeq_env (s : State) (v : Seq) : (s.setSeq v).env = s.env := rfl
@[simp] theorem State.setSeq_bus (s : State) (v : Seq) : (s.setSeq v).bus = s.bus := rfl
@[simp] theorem State.setSeq_hostData (s : State) (v : Seq) : (s.setSeq v).hostData = s.hostData := rfl
@[simp] theorem State.setSeq_draws (s : State) (v : Seq) : (s.setSeq v).draws = s.draws := rfl

/-! ### setEnv -/

@[simp] theorem State.setEnv_cmd (s : State) (v : List Event) : (s.setEnv v).cmd = s.cmd := rfl
@[simp] theorem State.setEnv_status (s : State) (v : List Event) : (s.setEnv v).status = s.status := rfl
@[simp] theorem State.setEnv_result (s : State) (v : List Event) : (s.setEnv v).result = s.result := rfl
@[simp] theorem State.setEnv_opw (s : State) (v : List Event) : (s.setEnv v).opw = s.opw := rfl
@[simp] theorem State.setEnv_opv (s : State) (v : List Event) : (s.setEnv v).opv = s.opv := rfl
@[simp] theorem State.setEnv_dev (s : State) (v : List Event) : (s.setEnv v).dev = s.dev := rfl
@[simp] theorem State.setEnv_cnt (s : State) (v : List Event) : (s.setEnv v).cnt = s.cnt := rfl
@[simp] theorem State.setEnv_handle (s : State) (v : List Event) : (s.setEnv v).handle = s.handle := rfl
@[simp] theorem State.setEnv_finfo (s : State) (v : List Event) : (s.setEnv v).finfo = s.finfo := rfl
@[simp] theorem State.setEnv_params (s : State) (v : List Event) : (s.setEnv v).params = s.params := rfl
@[simp] theorem State.setEnv_buf (s : State) (v : List Event) : (s.setEnv v).buf = s.buf := rfl
@[simp] theorem State.setEnv_seq (s : State) (v : List Event) : (s.setEnv v).seq = s.seq := rfl
@[simp] theorem State.setEnv_env (s : State) (v : List Event) : (s.setEnv v).env = v := rfl
@[simp] theorem State.setEnv_bus (s : State) (v : List Event) : (s.setEnv v).bus = s.bus := rfl
@[simp] theorem State.setEnv_hostData (s : State) (v : List Event) : (s.setEnv v).hostData = s.hostData := rfl
@[simp] theorem State.setEnv_draws (s : State) (v : List Event) : (s.setEnv v).draws = s.draws := rfl

/-! ### setBus -/

@[simp] theorem State.setBus_cmd (s : State) (v : List Request) : (s.setBus v).cmd = s.cmd := rfl
@[simp] theorem State.setBus_status (s : State) (v : List Request) : (s.setBus v).status = s.status := rfl
@[simp] theorem State.setBus_result (s : State) (v : List Request) : (s.setBus v).result = s.result := rfl
@[simp] theorem State.setBus_opw (s : State) (v : List Request) : (s.setBus v).opw = s.opw := rfl
@[simp] theorem State.setBus_opv (s : State) (v : List Request) : (s.setBus v).opv = s.opv := rfl
@[simp] theorem State.setBus_dev (s : State) (v : List Request) : (s.setBus v).dev = s.dev := rfl
@[simp] theorem State.setBus_cnt (s : State) (v : List Request) : (s.setBus v).cnt = s.cnt := rfl
@[simp] theorem State.setBus_handle (s : State) (v : List Request) : (s.setBus v).handle = s.handle := rfl
@[simp] theorem State.setBus_finfo (s : State) (v : List Request) : (s.setBus v).finfo = s.finfo := rfl
@[simp] theorem State.setBus_params (s : State) (v : List Request) : (s.setBus v).params = s.params := rfl
@[simp] theorem State.setBus_buf (s : State) (v : List Request) : (s.setBus v).buf = s.buf := rfl
@[simp] theorem State.setBus_seq (s : State) (v : List Request) : (s.setBus v).seq = s.seq := rfl
@[simp] theorem State.setBus_env (s : State) (v : List Request) : (s.setBus v).env = s.env := rfl
@[simp] theorem State.setBus_bus (s : State) (v : List Request) : (s.setBus v).bus = v := rfl
@[simp] theorem State.setBus_hostData (s : State) (v : List Request) : (s.setBus v).hostData = s.hostData := rfl
@[simp] theorem State.setBus_draws (s : State) (v : List Request) : (s.setBus v).draws = s.draws := rfl

/-! ### setHostData -/

@[simp] theorem State.setHostData_cmd (s : State) (v : Word) : (s.setHostData v).cmd = s.cmd := rfl
@[simp] theorem State.setHostData_status (s : State) (v : Word) : (s.setHostData v).status = s.status := rfl
@[simp] theorem State.setHostData_result (s : State) (v : Word) : (s.setHostData v).result = s.result := rfl
@[simp] theorem State.setHostData_opw (s : State) (v : Word) : (s.setHostData v).opw = s.opw := rfl
@[simp] theorem State.setHostData_opv (s : State) (v : Word) : (s.setHostData v).opv = s.opv := rfl
@[simp] theorem State.setHostData_dev (s : State) (v : Word) : (s.setHostData v).dev = s.dev := rfl
@[simp] theorem State.setHostData_cnt (s : State) (v : Word) : (s.setHostData v).cnt = s.cnt := rfl
@[simp] theorem State.setHostData_handle (s : State) (v : Word) : (s.setHostData v).handle = s.handle := rfl
@[simp] theorem State.setHostData_finfo (s : State) (v : Word) : (s.setHostData v).finfo = s.finfo := rfl
@[simp] theorem State.setHostData_params (s : State) (v : Word) : (s.setHostData v).params = s.params := rfl
@[simp] theorem State.setHostData_buf (s : State) (v : Word) : (s.setHostData v).buf = s.buf := rfl
@[simp] theorem State.setHostData_seq (s : State) (v : Word) : (s.setHostData v).seq = s.seq := rfl
@[simp] theorem State.setHostData_env (s : State) (v : Word) : (s.setHostData v).env = s.env := rfl
@[simp] theorem State.setHostData_bus (s : State) (v : Word) : (s.setHostData v).bus = s.bus := rfl
@[simp] theorem State.setHostData_hostData (s : State) (v : Word) : (s.setHostData v).hostData = v := rfl
@[simp] theorem State.setHostData_draws (s : State) (v : Word) : (s.setHostData v).draws = s.draws := rfl

/-! ### setDraws -/

@[simp] theorem State.setDraws_cmd (s : State) (v : Nat) : (s.setDraws v).cmd = s.cmd := rfl
@[simp] theorem State.setDraws_status (s : State) (v : Nat) : (s.setDraws v).status = s.status := rfl
@[simp] theorem State.setDraws_result (s : State) (v : Nat) : (s.setDraws v).result = s.result := rfl
@[simp] theorem State.setDraws_opw (s : State) (v : Nat) : (s.setDraws v).opw = s.opw := rfl
@[simp] theorem State.setDraws_opv (s : State) (v : Nat) : (s.setDraws v).opv = s.opv := rfl
@[simp] theorem State.setDraws_dev (s : State) (v : Nat) : (s.setDraws v).dev = s.dev := rfl
@[simp] theorem State.setDraws_cnt (s : State) (v : Nat) : (s.setDraws v).cnt = s.cnt := rfl
@[simp] theorem State.setDraws_handle (s : State) (v : Nat) : (s.setDraws v).handle = s.handle := rfl
@[simp] theorem State.setDraws_finfo (s : State) (v : Nat) : (s.setDraws v).finfo = s.finfo := rfl
@[simp] theorem State.setDraws_params (s : State) (v : Nat) : (s.setDraws v).params = s.params := rfl
@[simp] theorem State.setDraws_buf (s : State) (v : Nat) : (s.setDraws v).buf = s.buf := rfl
@[simp] theorem State.setDraws_seq (s : State) (v : Nat) : (s.setDraws v).seq = s.seq := rfl
@[simp] theorem State.setDraws_env (s : State) (v : Nat) : (s.setDraws v).env = s.env := rfl
@[simp] theorem State.setDraws_bus (s : State) (v : Nat) : (s.setDraws v).bus = s.bus := rfl
@[simp] theorem State.setDraws_hostData (s : State) (v : Nat) : (s.setDraws v).hostData = s.hostData := rfl
@[simp] theorem State.setDraws_draws (s : State) (v : Nat) : (s.setDraws v).draws = v := rfl

end Sys2Proof.Machine
end

