-- ==== Sys2Proof/Laws/Ops.lean ====
section
/-! SUPPORT. What the shared operations do: free bytes in BUF, abandoning a command, the fault entry (60_exceptions.md R200 to R202), the end of a command, reset. -/

namespace Sys2Proof.Machine

/-- `drawBuf` changes BUF below `n` and the counter of free values, nothing else. -/
theorem drawBuf_eq (n : Nat) (s : State) :
    drawBuf n s = { s with buf := s.buf.store 0 (freeBytes n s.draws), draws := s.draws + n } := rfl

@[simp] theorem drawBuf_zero (s : State) : drawBuf 0 s = s := rfl

theorem drawBuf_read {n k : Nat} (s : State) (h : n ≤ k) : (drawBuf n s).buf.read k = s.buf.read k := by
  rw [drawBuf_eq]
  simp only [Memory.read_store, freeBytes_length]
  rw [if_neg (by omega)]

/-- Abandoning the running command (R201). -/
theorem abandon_idle {s : State} (h : s.seq = .idle) : abandon s = s := by
  simp only [abandon, h]

theorem abandon_running {s : State} (h : s.seq ≠ .idle) :
    abandon s = { s with
      status := { s.status with busy := false }
      seq := .idle
      buf := s.buf.store 0 (freeBytes (touchedBytes s.seq) s.draws)
      draws := s.draws + touchedBytes s.seq } := by
  cases hq : s.seq with
  | idle => exact absurd hq h
  | running c o replies => simp only [abandon, hq]; rfl

/-- The fault entry, in each of the three situations of R200. -/
theorem raiseFault_again {s : State} (code : FaultCode) (info : Word) (h : s.status.fault = true) :
    raiseFault code info s = s := by
  simp [raiseFault, h]

theorem raiseFault_idle {s : State} (code : FaultCode) (info : Word) (h : s.status.fault = false) (hs : s.seq = .idle) :
    raiseFault code info s =
      { s with status := { s.status with fault := true, fcode := code }, finfo := info } := by
  simp only [raiseFault, h, Bool.false_eq_true, if_false, abandon_idle hs]
  rfl

theorem raiseFault_running {s : State} (code : FaultCode) (info : Word) (h : s.status.fault = false)
    (hs : s.seq ≠ .idle) :
    raiseFault code info s =
      { s with
        status := { s.status with busy := false, fault := true, fcode := code }
        finfo := info
        seq := .idle
        buf := s.buf.store 0 (freeBytes (touchedBytes s.seq) s.draws)
        draws := s.draws + touchedBytes s.seq } := by
  simp only [raiseFault, h, Bool.false_eq_true, if_false, abandon_running hs]
  rfl

/-- What a fault entry can change at all. -/
theorem raiseFault_frame (code : FaultCode) (info : Word) (s : State) :
    raiseFault code info s =
      { s with
        status := (raiseFault code info s).status
        finfo := (raiseFault code info s).finfo
        seq := (raiseFault code info s).seq
        buf := (raiseFault code info s).buf
        draws := (raiseFault code info s).draws } := by
  cases hf : s.status.fault
  · by_cases hs : s.seq = .idle
    · rw [raiseFault_idle code info hf hs]
    · rw [raiseFault_running code info hf hs]
  · rw [raiseFault_again code info hf]

/-- The end of a command writes OK, RESULT, BUSY and SEQ. -/
theorem complete_eq (ok : Bool) (r : Word) (s : State) :
    complete ok r s = { s with result := r, status := { s.status with ok := ok, busy := false }, seq := .idle } := rfl

theorem succeedNow_eq (r : Word) (s : State) :
    succeedNow r s = { s with result := r, status := { s.status with ok := true } } := rfl

/-- Reset: the reset state with the parameters, inputs, outputs and counter of `s`. -/
theorem resetEvent_eq (s : State) :
    resetEvent s =
      { State.resetWith s.params with env := s.env, bus := s.bus, hostData := s.hostData, draws := s.draws } := rfl

end Sys2Proof.Machine
end

