-- ==== Sys2Proof/Laws/Sequencer.lean ====
section
/-! SUPPORT. What the sequencer does: what is left of a command after its answers, what an answer and BLOCK's own turn do, and how a command can end (41_register_access.md R130 to R153). -/

namespace Sys2Proof.Machine

@[simp] theorem Proc.after_nil (p : Proc) : p.after [] = p := by cases p <;> rfl
@[simp] theorem Proc.after_request (r : Request) (next : Answer → Proc) (a : Answer) (l : List Answer) :
    (Proc.request r next).after (a :: l) = (next a).after l := rfl
@[simp] theorem Proc.after_finish (f : Finish) (l : List Answer) : (Proc.finish f).after l = .finish f := by
  cases l <;> rfl

theorem Proc.after_append (l : List Answer) : ∀ (p : Proc) (m : List Answer), p.after (l ++ m) = (p.after l).after m := by
  induction l with
  | nil => intro p m; simp
  | cons a l ih =>
    intro p m
    cases p with
    | request r next => exact ih (next a) m
    | finish f => simp

theorem pending_running {s : State} {c : Word} {o : Latched} {replies : List Answer} {i : Instr}
    (h : s.seq = .running c o replies) (hd : decode c = .ok i) :
    pending s = (procOf i s.params o).map fun p => p.after replies := by
  simp only [pending, h, hd]

theorem pending_idle {s : State} (h : s.seq = .idle) : pending s = none := by simp only [pending, h]

theorem pending_some {s : State} {p : Proc} (h : pending s = some p) :
    ∃ c o replies i q, s.seq = .running c o replies ∧ decode c = .ok i ∧ procOf i s.params o = some q ∧
      p = q.after replies := by
  unfold pending at h
  split at h
  · cases h
  · split at h
    · obtain ⟨q, hq, rfl⟩ := Option.map_eq_some_iff.mp h
      exact ⟨_, _, _, _, q, by assumption, by assumption, hq, rfl⟩
    · cases h

theorem outstanding_some {s : State} {r : Request} (h : outstanding s = some r) :
    ∃ next, pending s = some (.request r next) := by
  unfold outstanding at h
  split at h
  · cases h; exact ⟨_, by assumption⟩
  · cases h
  · cases h

theorem outstanding_of_pending {s : State} {r : Request} {next : Answer → Proc} (h : pending s = some (.request r next)) :
    outstanding s = some r := by
  simp only [outstanding, h]

theorem pending_congr {s t : State} (hq : t.seq = s.seq) (hp : t.params = s.params) : pending t = pending s := by
  simp only [pending, hq, hp]

theorem pending_received {s t : State} {r : Request} {next : Answer → Proc} {d : Answer}
    (h : pending s = some (.request r next)) (hq : t.seq = s.seq.received d) (hp : t.params = s.params) :
    pending t = some (next d) := by
  obtain ⟨c, o, replies, i, q, hs, hd, hpr, he⟩ := pending_some h
  have ht : t.seq = .running c o (replies ++ [d]) := by rw [hq, hs]; rfl
  rw [pending_running ht hd, hp, hpr, Option.map_some, Proc.after_append, ← he]; simp

theorem takeAnswer_none {s : State} (a : Answer) (h : outstanding s = none) : takeAnswer a s = s := by
  unfold takeAnswer
  split
  · rename_i h'; rw [outstanding_of_pending h'] at h; cases h
  · rfl
  · rfl

theorem takeAnswer_request {s : State} {r : Request} {next : Answer → Proc} (a : Answer)
    (h : pending s = some (.request r next)) :
    takeAnswer a s = advance (next (delivered r s.draws a))
      { s with seq := s.seq.received (delivered r s.draws a), draws := s.draws + deliveredDraws r a } := by
  simp only [takeAnswer, h]; rfl

theorem advance_request (r : Request) (next : Answer → Proc) (s : State) :
    advance (.request r next) s = { s with bus := s.bus ++ [r] } := rfl

theorem advance_finish (f : Finish) (s : State) : advance (.finish f) s = applyFinish f s := rfl

theorem applyFinish_eq (f : Finish) (s : State) :
    applyFinish f s =
      { s with
        result := f.result
        status := { s.status with ok := f.ok, busy := false }
        handle := f.newHandle.getD s.handle
        seq := .idle
        buf := (applyBuf f.buf s).buf
        draws := (applyBuf f.buf s).draws } := by
  unfold applyFinish
  cases f.buf <;> cases f.newHandle <;> rfl

theorem blockTurn_request {s : State} (h : outstanding s ≠ none) : blockTurn s = s := by
  unfold blockTurn
  split
  · rename_i h'; simp [outstanding, h'] at h
  · rfl
  · rfl
theorem blockTurn_idle {s : State} (h : s.seq = .idle) : blockTurn s = s := by
  simp only [blockTurn, pending_idle h]
theorem blockTurn_finish {s : State} {f : Finish} (h : pending s = some (.finish f)) : blockTurn s = applyFinish f s := by
  simp only [blockTurn, h]

theorem exactly_length (n d : Nat) (data : List Byte) : (exactly n d data).length = n := by
  simp [exactly]; omega

/-- Every way a command can end satisfies `P`. -/
def Proc.Ends (P : Finish → Prop) : Proc → Prop
  | .request _ next => ∀ a, (next a).Ends P
  | .finish f => P f

theorem Proc.Ends.after {P : Finish → Prop} (l : List Answer) : ∀ {p : Proc}, p.Ends P → (p.after l).Ends P := by
  induction l with
  | nil => intro p h; simpa using h
  | cons a l ih =>
    intro p h
    cases p with
    | request r next => exact ih (h a)
    | finish f => simpa using h

/-- BUF and HANDLE stay as they are. -/
abbrev Finish.Plain (f : Finish) : Prop := f.buf = .keep ∧ f.newHandle = none

theorem finishBool_plain (ok : Bool) : (finishBool ok).Ends Finish.Plain := by cases ok <;> exact ⟨rfl, rfl⟩
theorem finishValue_plain (v : Option Nat) : (finishValue v).Ends Finish.Plain := by cases v <;> exact ⟨rfl, rfl⟩
theorem Proc.Ends.ite {P : Finish → Prop} {c : Prop} [Decidable c] {p q : Proc} (hp : p.Ends P) (hq : q.Ends P) :
    (if c then p else q).Ends P := by split <;> assumption

theorem readReg_ends {P : Finish → Prop} {w : Width} {o : Latched} {reg : Byte} {next : Option Nat → Proc}
    (h : ∀ v, (next v).Ends P) : (readReg w o reg next).Ends P := fun _ =>
  Proc.Ends.ite (fun _ => h _) (h none)
theorem modifyReg_plain (w : Width) (o : Latched) (reg : Byte) (f : Nat → Nat) :
    (modifyReg w o reg f).Ends Finish.Plain :=
  readReg_ends fun v => match v with
    | none => finishBool_plain false
    | some _ => fun a => finishBool_plain a.ok
theorem modifyRaw_plain (w : Width) (o : Latched) (stop : Bool) (f : Nat → Nat) :
    (modifyRaw w o stop f).Ends Finish.Plain := by
  intro a
  simp only
  split
  · exact finishBool_plain false
  · exact fun b => finishBool_plain b.ok

/-- Every command but RDREGS and INIT leaves BUF and HANDLE as they are. -/
theorem procOf_plain {i : Instr} {ps : Params} {o : Latched} {q : Proc} (h : procOf i ps o = some q)
    (hi : i ≠ .init) (hr : ∀ reg, i ≠ .rdregs reg) : q.Ends Finish.Plain := by
  cases i <;> simp only [procOf, Option.some.injEq, reduceCtorEq] at h
  case rdregs reg => exact absurd rfl (hr reg)
  case init => exact absurd rfl hi
  case wrregs reg =>
    subst h
    exact Proc.Ends.ite (finishBool_plain false) fun a => finishBool_plain a.ok
  all_goals subst h
  all_goals first
    | exact readReg_ends fun v => finishValue_plain _
    | exact fun a => finishBool_plain a.ok
    | exact fun a => finishValue_plain _
    | exact modifyReg_plain _ _ _ _
    | exact modifyRaw_plain _ _ _ _

/-- How the answer to the outstanding request ends a command: what it may do to BUF and HANDLE. -/
theorem answer_finish {i : Instr} {ps : Params} {o : Latched} {q : Proc} {replies : List Answer} {r : Request}
    {next : Answer → Proc} {n : Nat} {a : Answer} {f : Finish} (hq : procOf i ps o = some q)
    (hr : q.after replies = .request r next) (hf : next (delivered r n a) = .finish f) :
    (f.buf = .keep ∨ (∃ reg, i = .rdregs reg) ∧ replies.length = 1 ∧
        (f.buf = .drawn o.cnt.toNat ∨ ∃ bytes, f.buf = .store bytes ∧ bytes.length = o.cnt.toNat)) ∧
      (f.newHandle = none ∨ i = .init ∧ ∃ h, h ≠ 0#32 ∧ f.newHandle = some h) := by
  by_cases hi : i = .init
  · subst hi
    cases hq
    obtain _ | ⟨x, l⟩ := replies
    · cases hr
      revert hf
      by_cases hz : a.handle = 0#32
      · simp only [delivered, hz, if_true]; rintro ⟨⟩; simp
      · simp only [delivered, hz, if_false]; rintro ⟨⟩; simpa using hz
    · by_cases hz : x.handle = 0#32 <;> simp [initProc, createHandle, hz, finishBool, finishWith] at hr
  by_cases hg : ∃ reg, i = .rdregs reg
  · obtain ⟨reg, rfl⟩ := hg
    cases hq
    obtain _ | ⟨x, l⟩ := replies
    · cases hr
      revert hf
      cases hz : a.ok
      · simp only [delivered, hz]; rintro ⟨⟩; simp
      · simp only [delivered, hz, if_true]; rintro ⟨⟩
    · cases hx : x.ok
      · simp [rdregsProc, busWrite, hx, finishBool, finishWith] at hr
      obtain _ | ⟨y, l⟩ := l
      · simp only [rdregsProc, busWrite, Proc.after_request, hx, if_true, Proc.after_nil] at hr
        cases hr
        revert hf
        cases hz : a.ok
        · simp only [delivered, hz]; rintro ⟨⟩; simp
        · simp only [delivered, deliveredData, hz, if_true]; rintro ⟨⟩; simp [exactly_length]
      · simp only [rdregsProc, busWrite, Proc.after_request, hx, if_true, busRead] at hr
        split at hr <;> simp at hr
  · have h := (procOf_plain hq hi fun reg h => hg ⟨reg, h⟩).after replies
    rw [hr] at h
    have h := h (delivered r n a)
    rw [hf] at h
    exact ⟨.inl h.1, .inl h.2⟩
/-- The command ends within `n` answers, whatever they are. -/
def Proc.Within : Nat → Proc → Prop
  | _, .finish _ => True
  | 0, .request _ _ => False
  | n + 1, .request _ next => ∀ a, (next a).Within n

theorem finishBool_within (n : Nat) (ok : Bool) : (finishBool ok).Within n := by cases ok <;> cases n <;> trivial
theorem finishValue_within (n : Nat) (v : Option Nat) : (finishValue v).Within n := by cases v <;> cases n <;> trivial
theorem Proc.Within.ite {n : Nat} {c : Prop} [Decidable c] {p q : Proc} (hp : p.Within n) (hq : q.Within n) :
    (if c then p else q).Within n := by split <;> assumption

theorem readReg_within {n : Nat} {w : Width} {o : Latched} {reg : Byte} {next : Option Nat → Proc}
    (h : ∀ v, (next v).Within n) (h' : (next none).Within (n + 1)) : (readReg w o reg next).Within (n + 2) := fun _ =>
  Proc.Within.ite (fun _ => h _) h'

theorem modifyReg_within (w : Width) (o : Latched) (reg : Byte) (f : Nat → Nat) : (modifyReg w o reg f).Within 3 :=
  readReg_within (n := 1)
    (fun v => match v with
      | none => finishBool_within 1 false
      | some _ => fun a => finishBool_within 0 a.ok)
    (finishBool_within 2 false)

theorem modifyRaw_within (w : Width) (o : Latched) (stop : Bool) (f : Nat → Nat) : (modifyRaw w o stop f).Within 3 := by
  intro a
  simp only
  split
  · exact finishBool_within 2 false
  · exact fun b => finishBool_within 1 b.ok

/-- Every command sends at most three requests (20_memory.md R57). -/
theorem procOf_within {i : Instr} {ps : Params} {o : Latched} {q : Proc} (h : procOf i ps o = some q) : q.Within 3 := by
  cases i <;> simp only [procOf, Option.some.injEq, reduceCtorEq] at h
  all_goals subst h
  case rdregs reg =>
    intro a
    refine Proc.Within.ite (fun b => ?_) (finishBool_within _ _)
    cases hb : b.ok <;> simp only [hb] <;> trivial
  case wrregs reg => exact Proc.Within.ite (finishBool_within _ _) fun a => finishBool_within _ _
  case init => exact fun a => Proc.Within.ite (finishBool_within _ _) trivial
  all_goals first
    | exact readReg_within (fun v => finishValue_within _ _) (finishValue_within _ _)
    | exact modifyReg_within _ _ _ _
    | exact modifyRaw_within _ _ _ _
    | exact fun a => finishBool_within _ _
    | exact fun a => finishValue_within _ _

/-- A longer bound also holds. -/
theorem within_mono : ∀ {n : Nat} {p : Proc}, p.Within n → p.Within (n+1)
  | n, .finish _, _ => by cases n <;> trivial
  | 0, .request _ _, h => absurd h (by simp [Proc.Within])
  | n+1, .request _ next, h => fun a => within_mono (h a)

/-- The bound survives the answers the command has taken. -/
theorem Proc.Within.after {n : Nat} (l : List Answer) : ∀ {p : Proc}, p.Within n → (p.after l).Within n := by
  induction l with
  | nil => intro p h; simpa using h
  | cons a l ih =>
    intro p h
    cases p with
    | finish f => simpa using h
    | request r next =>
      cases n with
      | zero => cases h
      | succ n => exact ih (within_mono (h a))

end Sys2Proof.Machine
end

