-- ==== Sys2Proof/Laws/Command.lean ====
section
/-! SUPPORT. What the accepting step of a command can do (30_encoding.md R79): one case analysis for all of `exec`. -/

namespace Sys2Proof.Machine

/-- A command with a request to send starts by sending it (R130 step 1). -/
theorem start_request (r : Request) (next : Answer → Proc) (o : Latched) (s : State) :
    start (.request r next) o s =
      { s with status := { s.status with busy := true }, seq := .running s.cmd o [], bus := s.bus ++ [r] } := rfl

theorem start_finish (f : Finish) (o : Latched) (s : State) :
    start (.finish f) o s = { s with status := { s.status with busy := true }, seq := .running s.cmd o [] } := rfl

theorem startBus_next {p : Params → Latched → Proc} {o : Latched} {s t : State} (h : startBus p o s = .next t) :
    s.handle = 0#32 ∧ t = raiseFault .noHandle s.cmd s ∨ s.handle ≠ 0#32 ∧ t = start (p s.params o) o s := by
  unfold startBus at h
  split at h <;> cases h
  · exact .inl ⟨by assumption, rfl⟩
  · exact .inr ⟨by assumption, rfl⟩

/-- How a bus command starts: with its first request, or a WRREGS whose count exceeds MAX_N with none (R141). -/
theorem bus_start {i : Instr} (hb : isBusCommand i) (ps : Params) (o : Latched) :
    (∃ r next, procOf i ps o = some (.request r next)) ∨
      (∃ reg, i = .wrregs reg) ∧ ps.maxN < o.cnt.toNat ∧ ∃ f, procOf i ps o = some (.finish f) := by
  cases i <;> simp only [isBusCommand, commandClass, reduceCtorEq, or_self] at hb
  case wrregs reg =>
    simp only [procOf, wrregsProc]
    split
    · exact .inr ⟨⟨_, rfl⟩, by assumption, _, rfl⟩
    · exact .inl ⟨_, _, rfl⟩
  all_goals exact .inl ⟨_, _, rfl⟩

/-- Everything the accepting step of a command can do. -/
theorem exec_cases {i : Instr} {s t : State} (h : exec i s = .next t) :
    (∃ code, code ≠ .none ∧ t = raiseFault code s.cmd s) ∨
    (¬isBusCommand i ∧ i ≠ .init ∧ ∃ r, t = succeedNow r s) ∨
    (i = .init ∧ s.status.initd = false ∧ s.params.i2cEnabled = false ∧
      t = complete true 1#32 (s.setStatus { s.status with initd := true })) ∨
    (i = .init ∧ s.status.initd = false ∧ s.params.i2cEnabled = true ∧
      t = start (initProc s.params (latch s)) (latch s) (s.setStatus { s.status with initd := true })) ∨
    (isBusCommand i ∧ s.handle ≠ 0#32 ∧ (∀ reg, i = .rdregs reg → s.cnt.toNat ≤ s.params.maxN) ∧
      ∃ (payload : List Byte) (d : Nat) (q : Proc),
        procOf i s.params { latch s with payload := payload } = some q ∧
        t = start q { latch s with payload := payload } { s with draws := d }) := by
  cases i
  case init =>
    simp only [exec, execInit] at h
    split at h
    · cases h; exact .inl ⟨_, by simp, rfl⟩
    · rename_i hi
      have hi : s.status.initd = false := by simpa using hi
      split at h
      · rename_i he; cases h; exact .inr (.inr (.inr (.inl ⟨rfl, hi, he, rfl⟩)))
      · rename_i he; cases h; exact .inr (.inr (.inl ⟨rfl, hi, by simpa [State.setStatus] using he, rfl⟩))
  case getglobal => cases h; exact .inr (.inl ⟨by simp [isBusCommand, commandClass], by simp, _, rfl⟩)
  case wrregs reg =>
    simp only [exec, execWrregs] at h
    split at h
    · cases h; exact .inl ⟨_, by simp, rfl⟩
    · rename_i hh
      cases h
      exact .inr (.inr (.inr (.inr ⟨by simp [isBusCommand, commandClass], hh, by simp, _, _, _, rfl, rfl⟩)))
  case rdregs reg =>
    simp only [exec, execRdregs] at h
    split at h
    · cases h; exact .inl ⟨_, by simp, rfl⟩
    · rename_i hc
      rcases startBus_next h with ⟨-, rfl⟩ | ⟨hh, rfl⟩
      · exact .inl ⟨_, by simp, rfl⟩
      · exact .inr (.inr (.inr (.inr ⟨by simp [isBusCommand, commandClass], hh, fun _ _ => by omega, [], s.draws, _, rfl,
          rfl⟩)))
  case getbit8 | getbit16 | setbit8 | setbit16 | getbits8 | getbits16 | setbits8 | setbits16 =>
    simp only [exec, execGetbit8, execGetbit16, execSetbit8, execSetbit16, execGetbits8, execGetbits16, execSetbits8,
      execSetbits16, bitCommand, fieldCommand] at h
    split at h <;> cases h
    · exact .inr (.inl ⟨by simp [isBusCommand, commandClass], by simp, _, rfl⟩)
    · exact .inl ⟨_, by simp, rfl⟩
  case rdreg8 | rdreg16 | wrreg8 | wrreg16 =>
    rcases startBus_next h with ⟨-, rfl⟩ | ⟨hh, rfl⟩
    · exact .inl ⟨_, by simp, rfl⟩
    · exact .inr (.inr (.inr (.inr ⟨by simp [isBusCommand, commandClass], hh, by simp, [], s.draws, _, rfl, rfl⟩)))
  all_goals
    simp only [exec, execRdregbit8, execRdregbit16, execRdregbf8, execRdregbf16, execRdbits8, execRdbits16, execWrregbit8,
      execWrregbit16, execWrregbf8, execWrregbf16, execWrbits8, execWrbits16, startBit, startField] at h
    split at h
    · rcases startBus_next h with ⟨-, rfl⟩ | ⟨hh, rfl⟩
      · exact .inl ⟨_, by simp, rfl⟩
      · exact .inr (.inr (.inr (.inr ⟨by simp [isBusCommand, commandClass], hh, by simp, [], s.draws, _, rfl, rfl⟩)))
    · cases h; exact .inl ⟨_, by simp, rfl⟩

/-- Every meaning answers a next state. -/
theorem exec_next (i : Instr) (s : State) : ∃ t, exec i s = .next t := by
  cases i <;>
    simp only [exec, execGetbit8, execGetbit16, execSetbit8, execSetbit16, execGetbits8, execGetbits16, execSetbits8,
      execSetbits16, execRdreg8, execRdreg16, execRdregs, execWrreg8, execWrreg16, execWrregs, execRdregbit8,
      execRdregbit16, execRdregbf8, execRdregbf16, execRdbits8, execRdbits16, execWrregbit8, execWrregbit16,
      execWrregbf8, execWrregbf16, execWrbits8, execWrbits16, execInit, execGetglobal, bitCommand, fieldCommand,
      startBit, startField, startBus, commandFault] <;>
    (try split_ifs) <;> exact ⟨_, rfl⟩

end Sys2Proof.Machine
end

