-- ==== Sys2Proof/Laws/Decode.lean ====
section
/-! SUPPORT. The fields of an assembled word (30_encoding.md R71, R83). -/

namespace Sys2Proof

section
variable (op : BitVec 5) (w : Width) (bs : BitVec 4) (len : BitVec 5) (f : Bool) (reg : Byte)

@[simp] theorem fieldOp_assemble : fieldOp (assemble op w bs len f reg) = op := by
  apply BitVec.eq_of_getLsbD_eq
  intro i hi
  interval_cases i <;> simp [fieldOp, assemble]

@[simp] theorem fieldBs_assemble : fieldBs (assemble op w bs len f reg) = bs := by
  apply BitVec.eq_of_getLsbD_eq
  intro i hi
  interval_cases i <;> simp [fieldBs, assemble]

@[simp] theorem fieldLen_assemble : fieldLen (assemble op w bs len f reg) = len := by
  apply BitVec.eq_of_getLsbD_eq
  intro i hi
  interval_cases i <;> simp [fieldLen, assemble]

@[simp] theorem fieldReg_assemble : fieldReg (assemble op w bs len f reg) = reg := by
  apply BitVec.eq_of_getLsbD_eq
  intro i hi
  interval_cases i <;> simp [fieldReg, assemble]

@[simp] theorem fieldRsv_assemble : fieldRsv (assemble op w bs len f reg) = 0#8 := by
  apply BitVec.eq_of_getLsbD_eq
  intro i hi
  interval_cases i <;> simp [fieldRsv, assemble]

@[simp] theorem fieldW_assemble : fieldW (assemble op w bs len f reg) = (w == .w16) := by
  simp [fieldW, assemble]

@[simp] theorem fieldF_assemble : fieldF (assemble op w bs len f reg) = f := by
  simp [fieldF, assemble]

end

end Sys2Proof
end

