-- ==== Sys2Proof/Laws/Flags.lean ====
section
/-! SUPPORT. STATUS and PARAMS bit by bit (10_state.md R23, R31). -/

namespace Sys2Proof.Machine

/-- The fields of STATUS (R23); every other bit reads 0. -/
theorem statusWord_fields (st : Status) :
    (statusWord st).getLsbD 0 = st.busy ∧ (statusWord st).getLsbD 1 = st.ok ∧ (statusWord st).getLsbD 2 = st.fault ∧
      (statusWord st).getLsbD 3 = st.initd ∧ (statusWord st).extractLsb' 4 4 = 0#4 ∧
      (statusWord st).extractLsb' 8 4 = st.fcode.code ∧ (statusWord st).extractLsb' 12 20 = 0#20 := by
  obtain ⟨busy, ok, fault, initd, code⟩ := st
  cases busy <;> cases ok <;> cases fault <;> cases initd <;> cases code <;> decide

/-- The fields of PARAMS (R31); every other bit reads 0. -/
theorem paramsWord_fields (p : Params) :
    (paramsWord p).extractLsb' 0 8 = BitVec.ofNat 8 p.maxN ∧ (paramsWord p).getLsbD 8 = p.readBit8Normalize ∧
      (paramsWord p).getLsbD 9 = p.i2cEnabled ∧ (paramsWord p).extractLsb' 10 22 = 0#22 := by
  obtain ⟨n, b, e, c⟩ := p
  simp only [paramsWord]
  generalize BitVec.ofNat 8 n = v
  revert v b e
  decide

end Sys2Proof.Machine
end

