-- ==== Sys2Proof/Laws/HostProgram.lean ====
section
/-! SUPPORT. The HOST's temporaries: reading one after an assignment (30_encoding.md R84). -/

namespace Sys2Proof.Machine

theorem readTemp_same (t : Nat) (v : Word) : ∀ temps : List Word, readTemp (writeTemp temps t v) t = v := by
  induction t with
  | zero => intro temps; cases temps <;> rfl
  | succ t ih =>
    intro temps
    cases temps with
    | nil => simpa [writeTemp, readTemp] using ih []
    | cons x rest => simpa [writeTemp, readTemp] using ih rest

theorem readTemp_other (t : Nat) (v : Word) :
    ∀ (u : Nat) (temps : List Word), u ≠ t → readTemp (writeTemp temps t v) u = readTemp temps u := by
  induction t with
  | zero =>
    intro u temps h
    cases u with
    | zero => exact absurd rfl h
    | succ u => cases temps <;> simp [writeTemp, readTemp]
  | succ t ih =>
    intro u temps h
    cases u with
    | zero => cases temps <;> simp [writeTemp, readTemp]
    | succ u =>
      have hu : u ≠ t := fun e => h (by rw [e])
      cases temps with
      | nil => simpa [writeTemp, readTemp] using ih u [] hu
      | cons x rest => simpa [writeTemp, readTemp] using ih u rest hu

end Sys2Proof.Machine
end

