-- ==== Sys2Proof/Laws/Operands.lean ====
section
/-! SUPPORT. The functions of 40_bitfield_algebra.md R101 bit by bit, the checks of R100, and words on the bus (20_memory.md R53). -/

namespace Sys2Proof.Machine

/-! ## Checks -/

/-- A command is well formed exactly when the check its meaning makes passes (R7, R100). -/
theorem validPos_eq_positionFits (w : Width) (p : BitVec 4) : validPos w p.toNat = positionFits w p := by
  simp only [validPos, positionFits, decide_eq_decide]
  omega

theorem validDesc_eq_descriptorFits (w : Width) (bs : BitVec 4) (len : BitVec 5) :
    validDesc w bs.toNat len.toNat = descriptorFits w bs len := by
  simp only [validDesc, descriptorFits, ← Bool.decide_and, decide_eq_decide]
  omega

/-! ## The functions of the bitfield unit, bit by bit -/

theorem testBit_ones (n q : Nat) : (ones n).testBit q = decide (q < n) := by
  simp [ones, Nat.testBit_two_pow_sub_one]

theorem testBit_complement (w : Width) (a q : Nat) (h : a < 2 ^ w.bits) :
    (complement w a).testBit q = (decide (q < w.bits) && !a.testBit q) := by
  have e : complement w a = 2 ^ w.bits - (a + 1) := by
    simp only [complement, Nat.mod_eq_of_lt h]; omega
  rw [e, Nat.testBit_two_pow_sub_succ h]

/-- GETBIT is the bit, as 0 or 1. -/
theorem getBit_eq (x p : Nat) : getBit x p = (x.testBit p).toNat := by
  rw [getBit, Nat.and_one_is_mod, Nat.testBit_eq_decide_div_mod_eq, Nat.shiftRight_eq_div_pow]
  rcases Nat.mod_two_eq_zero_or_one (x / 2 ^ p) with h | h <;> simp [h]

/-- SETBIT changes bit `p` and no other. -/
theorem testBit_setBit (w : Width) (d : Bool) {p x : Nat} (q : Nat) (hp : p < w.bits) (hx : x < 2 ^ w.bits) :
    (setBit w d p x).testBit q = if q = p then d else x.testBit q := by
  have hlt : 1 <<< p < 2 ^ w.bits := by
    rw [Nat.one_shiftLeft]; exact Nat.pow_lt_pow_right (by decide) hp
  have hone : (1 <<< p).testBit q = decide (p = q) := by rw [Nat.one_shiftLeft, Nat.testBit_two_pow]
  have hbig : w.bits ≤ q → x.testBit q = false := fun h =>
    Nat.testBit_lt_two_pow (lt_of_lt_of_le hx (Nat.pow_le_pow_right (by decide) h))
  cases d
  · simp only [setBit, Bool.false_eq_true, if_false, Nat.testBit_and, testBit_complement w _ _ hlt, hone]
    by_cases h : q = p
    · simp [h]
    · by_cases hq : q < w.bits
      · simp [h, hq, Ne.symm h]
      · simp [h, hq, hbig (by omega)]
  · simp only [setBit, if_true, Nat.testBit_or, hone]
    by_cases h : q = p
    · simp [h]
    · simp [h, Ne.symm h]

/-- GETBITS is the field, right-justified. -/
theorem testBit_getBits (x bs len q : Nat) :
    (getBits x bs len).testBit q = (decide (q < len) && x.testBit (bs + 1 - len + q)) := by
  simp only [getBits, Nat.testBit_and, Nat.testBit_shiftRight, testBit_ones, Bool.and_comm, lowBit]

theorem testBit_fieldMask (bs len q : Nat) :
    (fieldMask bs len).testBit q = (decide (bs + 1 - len ≤ q) && decide (q < bs + 1 - len + len)) := by
  simp only [fieldMask, lowBit, Nat.testBit_shiftLeft, testBit_ones]
  by_cases h : bs + 1 - len ≤ q
  · simp only [h, decide_true, Bool.true_and, decide_eq_decide]; omega
  · simp [h]

theorem fieldMask_lt {w : Width} {bs len : Nat} (hb : bs < w.bits) (hl : len ≤ bs + 1) :
    fieldMask bs len < 2 ^ w.bits := by
  apply Nat.lt_pow_two_of_testBit
  intro i hi
  have : ¬ i < bs + 1 - len + len := by omega
  simp [testBit_fieldMask, this]

/-- SETBITS replaces the field and changes no other bit. -/
theorem testBit_setBits (w : Width) {x bs len : Nat} (v q : Nat) (hx : x < 2 ^ w.bits) (hb : bs < w.bits)
    (hl : len ≤ bs + 1) :
    (setBits w x bs len v).testBit q =
      if bs + 1 - len ≤ q ∧ q ≤ bs then v.testBit (q - (bs + 1 - len)) else x.testBit q := by
  have hbig : w.bits ≤ q → x.testBit q = false := fun h =>
    Nat.testBit_lt_two_pow (lt_of_lt_of_le hx (Nat.pow_le_pow_right (by decide) h))
  have hm : (decide (bs + 1 - len ≤ q) && decide (q < bs + 1 - len + len)) =
      decide (bs + 1 - len ≤ q ∧ q ≤ bs) := by
    rw [← Bool.decide_and, decide_eq_decide]; omega
  have hlow : lowBit bs len = bs + 1 - len := rfl
  rw [setBits, hlow, Nat.testBit_or, Nat.testBit_and, Nat.testBit_and, Nat.testBit_shiftLeft,
    testBit_complement w _ _ (fieldMask_lt hb hl), testBit_fieldMask, hm]
  clear hm hlow
  generalize bs + 1 - len = lo
  by_cases h : lo ≤ q ∧ q ≤ bs
  · simp [h]
  · by_cases hq : q < w.bits
    · simp [h, hq]
    · simp [h, hbig (by omega)]

/-! ## Words on the bus -/

theorem operandWord_lt (w : Width) (v : Half) : operandWord w v < 2 ^ w.bits := Nat.mod_lt _ (by positivity)

theorem testBit_operandWord (w : Width) (v : Half) (q : Nat) :
    (operandWord w v).testBit q = (decide (q < w.bits) && v.getLsbD q) := by
  rw [operandWord, Nat.testBit_mod_two_pow, BitVec.testBit_toNat]

@[simp] theorem bytesWord_byte (b : Byte) : bytesWord .w8 [b] = b.toNat := by simp [bytesWord, dataByte]

@[simp] theorem bytesWord_word (b0 b1 : Byte) : bytesWord .w16 [b0, b1] = (b0 ++ b1).toNat := by
  rw [BitVec.toNat_append]; simp [bytesWord, dataByte]

theorem getLsbD_lowByte (v q : Nat) : (lowByte v).getLsbD q = (decide (q < 8) && v.testBit q) := by
  simp [lowByte, BitVec.getLsbD_ofNat]

theorem getLsbD_highByte (v q : Nat) : (highByte v).getLsbD q = (decide (q < 8) && v.testBit (8 + q)) := by
  rw [highByte, BitVec.getLsbD_ofNat, show v / 256 = v >>> 8 from by rw [Nat.shiftRight_eq_div_pow],
    Nat.testBit_shiftRight]

end Sys2Proof.Machine
end

