-- ==== Sys2Proof/Laws/PerInstr.lean ====
section
/-! SUPPORT. One law per command: its encoded word selects its row of the opcode map (30_encoding.md R78, mask 0xFF00003F), whatever its operands are. -/

namespace Sys2Proof.Laws.RowMatch

open Sys2Proof

/-- The `match` of a command's row (R78). -/
def rowMatch : Instr → Word
  | .getbit8 _ => 0x00000000#32
  | .getbit16 _ => 0x00000020#32
  | .setbit8 _ _ => 0x00000001#32
  | .setbit16 _ _ => 0x00000021#32
  | .getbits8 _ _ => 0x00000002#32
  | .getbits16 _ _ => 0x00000022#32
  | .setbits8 _ _ => 0x00000003#32
  | .setbits16 _ _ => 0x00000023#32
  | .rdreg8 _ => 0x00000004#32
  | .rdreg16 _ => 0x00000024#32
  | .rdregs _ => 0x00000005#32
  | .wrreg8 _ => 0x00000006#32
  | .wrreg16 _ => 0x00000026#32
  | .wrregs _ => 0x00000007#32
  | .rdregbit8 _ _ => 0x00000008#32
  | .rdregbit16 _ _ => 0x00000028#32
  | .rdregbf8 _ _ _ => 0x00000009#32
  | .rdregbf16 _ _ _ => 0x00000029#32
  | .rdbits8 _ _ _ => 0x0000000A#32
  | .rdbits16 _ _ _ => 0x0000002A#32
  | .wrregbit8 _ _ _ => 0x0000000B#32
  | .wrregbit16 _ _ _ => 0x0000002B#32
  | .wrregbf8 _ _ _ => 0x0000000C#32
  | .wrregbf16 _ _ _ => 0x0000002C#32
  | .wrbits8 _ _ _ => 0x0000000D#32
  | .wrbits16 _ _ _ => 0x0000002D#32
  | .init => 0x0000000E#32
  | .getglobal => 0x0000000F#32

/-- The encoded word of the command, cut to OP, W and RSV, is its row's `match`. -/
def Statement (i : Instr) : Prop := encode i &&& 0xFF00003F#32 = rowMatch i

/-- Every operand field lies outside OP, W and RSV. -/
theorem masked (op : BitVec 5) (w : Width) (bs : BitVec 4) (len : BitVec 5) (f : Bool) (reg : Byte) :
    assemble op w bs len f reg &&& 0xFF00003F#32 = assemble op w 0 0 false 0 := by
  apply BitVec.eq_of_getLsbD_eq
  intro k hk
  cases w <;> interval_cases k <;> simp [assemble]

theorem getbit8 (p : BitVec 4) : Statement (.getbit8 p) :=
  (masked _ _ _ _ _ _).trans rfl
theorem getbit16 (p : BitVec 4) : Statement (.getbit16 p) :=
  (masked _ _ _ _ _ _).trans rfl
theorem setbit8 (d : Bool) (p : BitVec 4) : Statement (.setbit8 d p) :=
  (masked _ _ _ _ _ _).trans rfl
theorem setbit16 (d : Bool) (p : BitVec 4) : Statement (.setbit16 d p) :=
  (masked _ _ _ _ _ _).trans rfl
theorem getbits8 (bs : BitVec 4) (len : BitVec 5) : Statement (.getbits8 bs len) :=
  (masked _ _ _ _ _ _).trans rfl
theorem getbits16 (bs : BitVec 4) (len : BitVec 5) : Statement (.getbits16 bs len) :=
  (masked _ _ _ _ _ _).trans rfl
theorem setbits8 (bs : BitVec 4) (len : BitVec 5) : Statement (.setbits8 bs len) :=
  (masked _ _ _ _ _ _).trans rfl
theorem setbits16 (bs : BitVec 4) (len : BitVec 5) : Statement (.setbits16 bs len) :=
  (masked _ _ _ _ _ _).trans rfl
theorem rdreg8 (reg : Byte) : Statement (.rdreg8 reg) :=
  (masked _ _ _ _ _ _).trans rfl
theorem rdreg16 (reg : Byte) : Statement (.rdreg16 reg) :=
  (masked _ _ _ _ _ _).trans rfl
theorem rdregs (reg : Byte) : Statement (.rdregs reg) :=
  (masked _ _ _ _ _ _).trans rfl
theorem wrreg8 (reg : Byte) : Statement (.wrreg8 reg) :=
  (masked _ _ _ _ _ _).trans rfl
theorem wrreg16 (reg : Byte) : Statement (.wrreg16 reg) :=
  (masked _ _ _ _ _ _).trans rfl
theorem wrregs (reg : Byte) : Statement (.wrregs reg) :=
  (masked _ _ _ _ _ _).trans rfl
theorem rdregbit8 (reg : Byte) (p : BitVec 4) : Statement (.rdregbit8 reg p) :=
  (masked _ _ _ _ _ _).trans rfl
theorem rdregbit16 (reg : Byte) (p : BitVec 4) : Statement (.rdregbit16 reg p) :=
  (masked _ _ _ _ _ _).trans rfl
theorem rdregbf8 (reg : Byte) (bs : BitVec 4) (len : BitVec 5) : Statement (.rdregbf8 reg bs len) :=
  (masked _ _ _ _ _ _).trans rfl
theorem rdregbf16 (reg : Byte) (bs : BitVec 4) (len : BitVec 5) : Statement (.rdregbf16 reg bs len) :=
  (masked _ _ _ _ _ _).trans rfl
theorem rdbits8 (bs : BitVec 4) (len : BitVec 5) (stop : Bool) : Statement (.rdbits8 bs len stop) :=
  (masked _ _ _ _ _ _).trans rfl
theorem rdbits16 (bs : BitVec 4) (len : BitVec 5) (stop : Bool) : Statement (.rdbits16 bs len stop) :=
  (masked _ _ _ _ _ _).trans rfl
theorem wrregbit8 (reg : Byte) (p : BitVec 4) (d : Bool) : Statement (.wrregbit8 reg p d) :=
  (masked _ _ _ _ _ _).trans rfl
theorem wrregbit16 (reg : Byte) (p : BitVec 4) (d : Bool) : Statement (.wrregbit16 reg p d) :=
  (masked _ _ _ _ _ _).trans rfl
theorem wrregbf8 (reg : Byte) (bs : BitVec 4) (len : BitVec 5) : Statement (.wrregbf8 reg bs len) :=
  (masked _ _ _ _ _ _).trans rfl
theorem wrregbf16 (reg : Byte) (bs : BitVec 4) (len : BitVec 5) : Statement (.wrregbf16 reg bs len) :=
  (masked _ _ _ _ _ _).trans rfl
theorem wrbits8 (bs : BitVec 4) (len : BitVec 5) (stop : Bool) : Statement (.wrbits8 bs len stop) :=
  (masked _ _ _ _ _ _).trans rfl
theorem wrbits16 (bs : BitVec 4) (len : BitVec 5) (stop : Bool) : Statement (.wrbits16 bs len stop) :=
  (masked _ _ _ _ _ _).trans rfl
theorem init : Statement .init :=
  (masked _ _ _ _ _ _).trans rfl
theorem getglobal : Statement .getglobal :=
  (masked _ _ _ _ _ _).trans rfl

end Sys2Proof.Laws.RowMatch
end

