-- ==== Sys2Proof/Laws/Step.lean ====
section
/-! SUPPORT. What a step does, by its event; the register map; host writes (20_memory.md R51, 60_exceptions.md R196, R199, R202). -/

namespace Sys2Proof.Machine

/-! ## One step -/

theorem step_nil {s : State} (h : s.env = []) : step s = .next (blockTurn s) := by
  simp only [step, nextStep, h]

theorem step_cons {s : State} {e : Event} {rest : List Event} (h : s.env = e :: rest) :
    step s = handleEvent e { s with env := rest } := by
  simp only [step, nextStep, h]; rfl

/-! ## The register map -/

/-- R51's legal offsets. -/
theorem regAt_none {maxN off : Nat} :
    regAt maxN off = none ↔ ¬(off % 4 = 0 ∧ (off ≤ 0x24 ∨ (0x100 ≤ off ∧ off < 0x100 + 4 * maxN))) := by
  unfold regAt
  split
  iterate 10 simp
  rename_i h0 h1 h2 h3 h4 h5 h6 h7 h8 h9
  split
  · simp only [reduceCtorEq, false_iff, not_not]; omega
  · simp only [true_iff]
    have g0 : off ≠ 0 := h0
    have g1 : off ≠ 4 := h1
    have g2 : off ≠ 8 := h2
    have g3 : off ≠ 12 := h3
    have g4 : off ≠ 16 := h4
    have g5 : off ≠ 20 := h5
    have g6 : off ≠ 24 := h6
    have g7 : off ≠ 28 := h7
    have g8 : off ≠ 32 := h8
    have g9 : off ≠ 36 := h9
    omega

theorem regAt_buf {maxN i : Nat} (h : i < maxN) : regAt maxN (0x100 + 4 * i) = some (.buf i) := by
  unfold regAt
  split
  iterate 10 omega
  have e : (0x100 + 4 * i - 0x100) / 4 = i := by omega
  rw [if_pos (by rw [e]; omega), e]

theorem regAt_some {maxN off : Nat} {r : HostReg} (h : regAt maxN off = some r) :
    off = r.offset ∧ ∀ i, r = .buf i → i < maxN := by
  unfold regAt at h
  split at h
  iterate 10 (cases h; exact ⟨rfl, by simp⟩)
  split at h
  · cases h; simp only [HostReg.offset, HostReg.buf.injEq]; constructor
    · omega
    · rintro i rfl; omega
  · cases h

theorem legalAccess_word (maxN off : Nat) : legalAccess maxN 32 off = regAt maxN off := by simp [legalAccess]

/-! ## Host reads -/

/-- A legal host read gives the HOST the register, uses up one free value, and does nothing else (R51, R59, R224). -/
theorem step_legalRead {s : State} {off : Nat} {rest : List Event} {r : HostReg}
    (he : s.env = .hostRead 32 off :: rest) (hr : regAt s.params.maxN off = some r) :
    step s = .next { s with env := rest, hostData := readHostReg r s, draws := s.draws + 1 } := by
  rw [step_cons he]; simp only [handleEvent, hostRead, legalAccess_word, hr]; cases r <;> rfl

/-! ## Host writes -/

theorem hostWrite_faulted {s : State} (bits off : Nat) (v : Word) (h : s.status.fault = true) :
    hostWrite bits off v s = .next s := by simp [hostWrite, h]

theorem hostWrite_illegal {s : State} {bits off : Nat} (v : Word) (h : s.status.fault = false)
    (hl : legalAccess s.params.maxN bits off = none) :
    hostWrite bits off v s = .next (raiseFault .hostAccess (accessInfo true off) s) := by
  simp [hostWrite, h, hl]

theorem hostWrite_busy {s : State} {bits off : Nat} {r : HostReg} (v : Word) (h : s.status.fault = false)
    (hl : legalAccess s.params.maxN bits off = some r) (hb : s.status.busy = true) :
    hostWrite bits off v s = .next (raiseFault .busyWrite (accessInfo true off) s) := by
  simp [hostWrite, h, hl, hb]

theorem hostWrite_legal {s : State} {bits off : Nat} {r : HostReg} (v : Word) (h : s.status.fault = false)
    (hl : legalAccess s.params.maxN bits off = some r) (hb : s.status.busy = false) :
    hostWrite bits off v s = writeHostReg r v s := by
  simp [hostWrite, h, hl, hb]

/-- FINFO of a host access fault is the word of R30 as a number. -/
theorem accessInfo_eq (w : Bool) (off : Nat) :
    accessInfo w off = BitVec.ofNat 32 ((if w then 2 ^ 31 else 0) + off % 2 ^ 12) := by
  have h : off % 2 ^ 12 < 2 ^ 12 := Nat.mod_lt _ (by decide)
  have e : BitVec.ofNat 12 off = BitVec.ofNat 12 (off % 2 ^ 12) := by
    apply BitVec.eq_of_toNat_eq; simp
  rw [accessInfo, e]
  generalize off % 2 ^ 12 = k at h
  have h : k < 4096 := h
  apply BitVec.eq_of_toNat_eq
  cases w
  · simp; omega
  · have h2 : k < 2 ^ 31 := by omega
    simp only [BitVec.ofBool, BitVec.toNat_or, BitVec.toNat_shiftLeft, BitVec.toNat_setWidth, BitVec.toNat_ofNat, if_true]
    have := Nat.two_pow_add_eq_or_of_lt h2 1
    simp only [mul_one] at this
    have a1 : k % 2^12 % 2^32 = k := by omega
    have a2 : (2^31 + k) % 2^32 = 2^31 + k := by omega
    rw [a1, a2, this]; rfl

theorem legal_offset_small {maxN off : Nat} (h : maxN ≤ 64) {r : HostReg} (hr : regAt maxN off = some r) :
    off % 2 ^ 12 = off := by
  obtain ⟨rfl, hi⟩ := regAt_some hr
  cases r <;> simp [HostReg.offset]
  rename_i i; have := hi i rfl; omega

/-! ## Everything a step can do -/

/-- `s` with its first event taken. -/
abbrev State.taken (s : State) : State := { s with env := s.env.tail }

/-- The cases of one step from `s`, with the condition of each. -/
inductive StepCase (s : State) : State → Prop where
  /-- Nothing but the event is used up. -/
  | ignored (h : s.env.head? ≠ some .reset) : StepCase s s.taken
  /-- A legal host read. -/
  | read (off : Nat) (v : Word) (h : s.env.head? = some (.hostRead 32 off)) :
      StepCase s { s.taken with hostData := v, draws := s.draws + 1 }
  /-- A host access that faults; an illegal read has given the HOST some value first. -/
  | accessFault (code : FaultCode) (info v : Word) (d : Nat) (hc : code ≠ .none) (hf : s.status.fault = false)
      (h : ∃ e, s.env.head? = some e ∧ e.isHost = true) :
      StepCase s (raiseFault code info { s.taken with hostData := v, draws := d })
  /-- An illegal read of a faulted block. -/
  | faultedRead (v : Word) (hf : s.status.fault = true) (h : ∃ bits off, s.env.head? = some (.hostRead bits off)) :
      StepCase s { s.taken with hostData := v, draws := s.draws + 1 }
  /-- A command word that is no command. -/
  | illegalWord (c : Word) (h : s.env.head? = some (.hostWrite 32 0x000 c)) (hb : s.status.busy = false)
      (hf : s.status.fault = false) : StepCase s (raiseFault .illegalCmd c { s.taken with cmd := c })
  /-- A command is accepted. -/
  | command (c : Word) (i : Instr) (t : State) (h : s.env.head? = some (.hostWrite 32 0x000 c))
      (hb : s.status.busy = false) (hf : s.status.fault = false) (hd : decode c = .ok i)
      (ht : exec i { s.taken with cmd := c } = .next t) : StepCase s t
  /-- An operand register is written. -/
  | opw (v : Word) (h : s.env.head? = some (.hostWrite 32 0x00C v)) (hb : s.status.busy = false)
      (hf : s.status.fault = false) : StepCase s { s.taken with opw := v.setWidth 16 }
  | opv (v : Word) (h : s.env.head? = some (.hostWrite 32 0x010 v)) (hb : s.status.busy = false)
      (hf : s.status.fault = false) : StepCase s { s.taken with opv := v.setWidth 16 }
  | dev (v : Word) (h : s.env.head? = some (.hostWrite 32 0x014 v)) (hb : s.status.busy = false)
      (hf : s.status.fault = false) : StepCase s { s.taken with dev := v.setWidth 16 }
  | cnt (v : Word) (h : s.env.head? = some (.hostWrite 32 0x018 v)) (hb : s.status.busy = false)
      (hf : s.status.fault = false) : StepCase s { s.taken with cnt := v.setWidth 8 }
  /-- A byte of BUF is written. -/
  | buf (k : Nat) (v : Word) (hk : k < s.params.maxN) (h : s.env.head? = some (.hostWrite 32 (0x100 + 4 * k) v))
      (hb : s.status.busy = false) (hf : s.status.fault = false) :
      StepCase s { s.taken with buf := s.buf.write k (v.setWidth 8) }
  /-- TRANSPORT answers the outstanding request. -/
  | answer (a : Answer) (r : Request) (next : Answer → Proc) (h : s.env.head? = some (.answer a))
      (hp : pending s = some (.request r next)) :
      StepCase s (advance (next (delivered r s.draws a))
        { s.taken with seq := s.seq.received (delivered r s.draws a), draws := s.draws + deliveredDraws r a })
  /-- BLOCK ends a command that has nothing to wait for. -/
  | turn (f : Finish) (h : s.env.head? = none ∨ s.env.head? = some .block) (hp : pending s = some (.finish f)) :
      StepCase s (applyFinish f s.taken)
  /-- Reset. -/
  | reset (h : s.env.head? = some .reset) : StepCase s (resetEvent s.taken)

theorem blockTurn_case {s : State} (h : s.env.head? = none ∨ s.env.head? = some .block) :
    StepCase s (blockTurn s.taken) := by
  have hp : pending s.taken = pending s := pending_congr rfl rfl
  unfold blockTurn
  split
  · rename_i f hf; exact .turn f h (hp ▸ hf)
  · exact .ignored (by rcases h with h | h <;> simp [h])
  · exact .ignored (by rcases h with h | h <;> simp [h])

theorem takeAnswer_case {s : State} {a : Answer} (h : s.env.head? = some (.answer a)) :
    StepCase s (takeAnswer a s.taken) := by
  have hp : pending s.taken = pending s := pending_congr rfl rfl
  cases ho : pending s.taken with
  | none => rw [takeAnswer_none a (by simp [outstanding, ho])]; exact .ignored (by simp [h])
  | some p =>
    cases p with
    | request r next => rw [takeAnswer_request a ho]; exact .answer a r next h (hp ▸ ho)
    | finish f => rw [takeAnswer_none a (by simp [outstanding, ho])]; exact .ignored (by simp [h])

theorem hostRead_case {s : State} {bits off : Nat} (h : s.env.head? = some (.hostRead bits off)) :
    StepCase s (hostRead bits off s.taken) := by
  unfold hostRead
  split
  · rename_i r hr
    have hb : bits = 32 := by by_contra hb; simp [legalAccess, hb] at hr
    subst hb
    exact .read off _ h
  · cases hf : s.status.fault
    · exact .accessFault _ _ _ _ (by simp) hf ⟨_, h, rfl⟩
    · rw [raiseFault_again]
      · exact .faultedRead _ hf ⟨bits, off, h⟩
      · exact hf

theorem hostWrite_case {s t : State} {bits off : Nat} {v : Word} (h : s.env.head? = some (.hostWrite bits off v))
    (ht : hostWrite bits off v s.taken = .next t) : StepCase s t := by
  have hn : s.env.head? ≠ some .reset := by simp [h]
  unfold hostWrite at ht
  split at ht
  · cases ht; exact .ignored hn
  rename_i hf
  have hf : s.status.fault = false := by simpa using hf
  split at ht
  · cases ht; exact .accessFault _ _ s.hostData s.draws (by simp) hf ⟨_, h, rfl⟩
  rename_i r hr
  split at ht
  · cases ht; exact .accessFault _ _ s.hostData s.draws (by simp) hf ⟨_, h, rfl⟩
  rename_i hb
  have hb : s.status.busy = false := by simpa using hb
  have hbits : bits = 32 := by by_contra hb; simp [legalAccess, hb] at hr
  subst hbits
  rw [legalAccess_word] at hr
  obtain ⟨rfl, hi⟩ := regAt_some hr
  cases r
  case cmd =>
    simp only [writeHostReg, accept] at ht
    split at ht
    · exact .command v _ t h hb hf (by assumption) ht
    · cases ht; exact .illegalWord v h hb hf
  case opw => cases ht; exact .opw v h hb hf
  case opv => cases ht; exact .opv v h hb hf
  case dev => cases ht; exact .dev v h hb hf
  case cnt => cases ht; exact .cnt v h hb hf
  case buf k => cases ht; exact .buf k v (hi k rfl) h hb hf
  all_goals cases ht; exact .ignored hn

/-- Everything a step can do. -/
theorem step_cases {s t : State} (h : step s = .next t) : StepCase s t := by
  cases he : s.env with
  | nil =>
    rw [step_nil he] at h
    cases h
    have e : s = s.taken := by cases s; cases he; rfl
    have := blockTurn_case (s := s) (.inl (by simp [he]))
    rwa [← e] at this
  | cons e rest =>
    have hh : s.env.head? = some e := by simp [he]
    have hu : { s with env := rest } = s.taken := by simp [State.taken, he]
    rw [step_cons he, hu] at h
    cases e
    case hostWrite => exact hostWrite_case hh h
    case hostRead => cases h; exact hostRead_case hh
    case answer => cases h; exact takeAnswer_case hh
    case lateAnswer => cases h; exact .ignored (by simp [hh])
    case block => cases h; exact blockTurn_case (.inr hh)
    case reset => cases h; exact .reset hh
end Sys2Proof.Machine
end

