-- ==== Sys2Proof/Tests/Slice0.lean ====
section
/-! SUPPORT. Tests against the worked vectors of 95_test_vectors.md (their numbers stand in the comments), the smoke test of WellFormed, and for every statement with hypotheses a witness that meets them. -/

namespace Sys2Proof.Tests

open Sys2Proof Sys2Proof.Machine

/-! ## Helpers -/

def after : Out → Option State
  | .next t => some t
  | .fault _ => none
  | .refused _ => none

/-- The state after INIT (vector H1) with DEV = 0x68. -/
def ready : State :=
  { State.reset with
    status := { busy := false, ok := true, fault := false, initd := true, fcode := .none }
    result := 1#32
    handle := 1#32
    dev := 0x68#16 }

/-- `s` with operands. -/
def operands (opw opv : Half) (s : State) : State := { s with opw := opw, opv := opv }

/-- The next event writes `c` to CMD. -/
def writing (c : Word) (s : State) : State := { s with env := [.hostWrite 32 0x000 c] }

/-- RESULT and STATUS after the step that accepts `c`. -/
def accepted (c : Word) (s : State) : Option (Word × Word) :=
  (after (step (writing c s))).map fun t => (t.result, statusWord t.status)

/-- STATUS and FINFO after the step that takes event `e`. -/
def faults (e : Event) (s : State) : Option (Word × Word) :=
  (after (step { s with env := [e] })).map fun t => (statusWord t.status, t.finfo)

/-- The requests sent by the step that accepts `c`. -/
def sends (c : Word) (s : State) : Option (List Request) := (after (step (writing c s))).map State.bus

/-- `c` running since `s`, with the answers `replies` so far, and the answer `a` to come. -/
def inFlight (c : Word) (replies : List Answer) (a : Answer) (s : State) : State :=
  { s with
    cmd := c
    status := { s.status with busy := true }
    seq := .running c (latch s) replies
    env := [.answer a] }

/-- RESULT, STATUS and the requests sent in the step that takes answer `a`. -/
def answered (c : Word) (replies : List Answer) (a : Answer) (s : State) : Option (Word × Word × List Request) :=
  (after (step (inFlight c replies a s))).map fun t => (t.result, statusWord t.status, t.bus)

/-- A failing answer. -/
def failed : Answer := { ok := false, data := [], handle := 0#32 }

/-! ## WellFormed -/

theorem test_ill_formed_positions :
    (Instr.getbit8 8).wellFormed = false ∧ (Instr.setbit8 true 15).wellFormed = false ∧
    (Instr.rdregbit8 0x3A#8 8).wellFormed = false ∧ (Instr.wrregbit8 0x6B#8 15 true).wellFormed = false := by decide

theorem test_ill_formed_starts :
    (Instr.getbits8 8 1).wellFormed = false ∧ (Instr.setbits8 8 1).wellFormed = false ∧
    (Instr.rdregbf8 0x6B#8 8 1).wellFormed = false ∧ (Instr.rdbits8 8 1 true).wellFormed = false ∧
    (Instr.wrregbf8 0x6B#8 8 1).wellFormed = false ∧ (Instr.wrbits8 8 1 true).wellFormed = false := by decide

theorem test_ill_formed_byte_lengths :
    (Instr.getbits8 2 4).wellFormed = false ∧ (Instr.setbits8 2 4).wellFormed = false ∧
    (Instr.rdregbf8 0x6B#8 2 4).wellFormed = false ∧ (Instr.rdbits8 2 4 true).wellFormed = false ∧
    (Instr.wrregbf8 0x6B#8 2 4).wellFormed = false ∧ (Instr.wrbits8 2 4 true).wellFormed = false := by decide

theorem test_ill_formed_word_lengths :
    (Instr.getbits16 15 17).wellFormed = false ∧ (Instr.setbits16 3 5).wellFormed = false ∧
    (Instr.rdregbf16 0x40#8 3 5).wellFormed = false ∧ (Instr.rdbits16 3 5 true).wellFormed = false ∧
    (Instr.wrregbf16 0x40#8 3 5).wellFormed = false ∧ (Instr.wrbits16 3 5 true).wellFormed = false := by decide

theorem test_well_formed_edges :
    (Instr.getbit8 7).wellFormed = true ∧ (Instr.getbit16 15).wellFormed = true ∧ (Instr.getbits8 7 8).wellFormed = true ∧
    (Instr.getbits8 0 0).wellFormed = true ∧ (Instr.getbits16 15 16).wellFormed = true := by decide

/-! ## Decoding: words written out in 95_test_vectors.md -/

theorem test_decode_bits :
    decode 0x000001C0#32 = .ok (.getbit8 7) ∧ decode 0x000003A0#32 = .ok (.getbit16 14) ∧
    decode 0x000081C1#32 = .ok (.setbit8 true 7) ∧ decode 0x00000221#32 = .ok (.setbit16 false 8) := by decide

theorem test_decode_fields :
    decode 0x00000D42#32 = .ok (.getbits8 5 3) ∧ decode 0x000022E2#32 = .ok (.getbits16 11 8) ∧
    decode 0x000011C3#32 = .ok (.setbits8 7 4) ∧ decode 0x00001263#32 = .ok (.setbits16 9 4) := by decide

theorem test_decode_registers :
    decode 0x00750004#32 = .ok (.rdreg8 0x75#8) ∧ decode 0x003B0024#32 = .ok (.rdreg16 0x3B#8) ∧
    decode 0x00100005#32 = .ok (.rdregs 0x10#8) ∧ decode 0x006B0006#32 = .ok (.wrreg8 0x6B#8) ∧
    decode 0x00200026#32 = .ok (.wrreg16 0x20#8) ∧ decode 0x00100007#32 = .ok (.wrregs 0x10#8) := by decide

theorem test_decode_register_parts :
    decode 0x003A01C8#32 = .ok (.rdregbit8 0x3A#8 7) ∧ decode 0x00400268#32 = .ok (.rdregbit16 0x40#8 9) ∧
    decode 0x006B0D49#32 = .ok (.rdregbf8 0x6B#8 5 3) ∧ decode 0x004012E9#32 = .ok (.rdregbf16 0x40#8 11 4) ∧
    decode 0x000010CA#32 = .ok (.rdbits8 3 4 false) ∧ decode 0x000093EA#32 = .ok (.rdbits16 15 4 true) := by decide

theorem test_decode_modifications :
    decode 0x006B818B#32 = .ok (.wrregbit8 0x6B#8 6 true) ∧ decode 0x0040032B#32 = .ok (.wrregbit16 0x40#8 12 false) ∧
    decode 0x006B0D4C#32 = .ok (.wrregbf8 0x6B#8 5 3) ∧ decode 0x004012EC#32 = .ok (.wrregbf16 0x40#8 11 4) ∧
    decode 0x000090CD#32 = .ok (.wrbits8 3 4 true) ∧ decode 0x000093ED#32 = .ok (.wrbits16 15 4 true) := by decide

theorem test_decode_handle :
    decode 0x0000000E#32 = .ok .init ∧ decode 0x0000000F#32 = .ok .getglobal := by decide

/-- R80: one word of each illegal kind, and the last legal neighbours. -/
theorem test_decode_illegal :
    decode 0x00000010#32 = .illegal .reservedOpcode ∧ decode 0x0000001F#32 = .illegal .reservedOpcode ∧
    decode 0x00000025#32 = .illegal .noWordForm ∧ decode 0x00000027#32 = .illegal .noWordForm ∧
    decode 0x0000002E#32 = .illegal .noWordForm ∧ decode 0x0000002F#32 = .illegal .noWordForm ∧
    decode 0x01000000#32 = .illegal .reservedBits ∧ decode 0x80000010#32 = .illegal .reservedBits := by decide

/-- R83's example. -/
theorem test_encode_example : encode (.setbits8 7 4) = 0x000011C3#32 := by decide

/-- R84: B8e `SETB.8 0`; P2 `CLRB.8 7`; M1 as `BSETR.8`; P6 `BCLRR.16 0x20, 12`. -/
theorem test_aliases :
    encode (asmSetb .w8 0) = 0x00008001#32 ∧ encode (asmClrb .w8 7) = 0x000001C1#32 ∧
    encode (asmBsetr .w8 0x6B#8 6) = 0x006B818B#32 ∧ encode (asmBclrr .w16 0x20#8 12) = 0x0020032B#32 := by decide

theorem test_table_word :
    decodeTableWord 28 0x000001C0 = some (.getbit8 7) ∧ decodeTableWord 32 0x0000000E = some .init ∧
    decodeTableWord 32 0x00000030 = none := by decide

/-- A placed command is the very next thing that runs (log entry 2). -/
theorem test_placed_command :
    (after (step (State.reset.withFetchWord 32 0x0000000F))).map (fun t => (t.cmd, t.status.ok)) =
      some (0x0000000F#32, true) := by decide

/-- From reset with nothing placed, a step changes nothing (log entries 2 and 15). -/
theorem test_idle_step : after (step State.reset) = some State.reset := by decide

/-! ## The bitfield unit -/

/-- B1, B4a. -/
theorem test_getbit8 :
    accepted 0x000001C0#32 (operands 0x0080#16 0 State.reset) = some (1#32, 0x00000002#32) ∧
    accepted 0x000001C0#32 (operands 0xFFFF#16 0 State.reset) = some (1#32, 0x00000002#32) := by decide
/-- B2. -/
theorem test_getbit8_clear :
    accepted 0x000001C0#32 (operands 0x007F#16 0 State.reset) = some (0#32, 0x00000002#32) := by decide
/-- B4b, B4d. -/
theorem test_getbit16 :
    accepted 0x000003E0#32 (operands 0x8000#16 0 State.reset) = some (1#32, 0x00000002#32) ∧
    accepted 0x00000220#32 (operands 0x0100#16 0 State.reset) = some (1#32, 0x00000002#32) := by decide
/-- B4c. -/
theorem test_getbit16_clear :
    accepted 0x000003A0#32 (operands 0x8000#16 0 State.reset) = some (0#32, 0x00000002#32) := by decide
/-- B8a: OPW[15:8] is ignored. -/
theorem test_setbit8_set :
    accepted 0x000081C1#32 (operands 0x1234#16 0 State.reset) = some (0xB4#32, 0x00000002#32) := by decide
/-- B6. -/
theorem test_setbit8_clear :
    accepted 0x000001C1#32 (operands 0x00FF#16 0 State.reset) = some (0x7F#32, 0x00000002#32) := by decide
/-- B8b. -/
theorem test_setbit16_set :
    accepted 0x000083E1#32 (operands 0x0000#16 0 State.reset) = some (0x8000#32, 0x00000002#32) := by decide
/-- B8c. -/
theorem test_setbit16_clear :
    accepted 0x00000221#32 (operands 0xFFFF#16 0 State.reset) = some (0xFEFF#32, 0x00000002#32) := by decide
/-- F1f. -/
theorem test_getbits8 :
    accepted 0x000011C2#32 (operands 0x3CA0#16 0 State.reset) = some (0x0A#32, 0x00000002#32) := by decide
/-- F1e: length 0. -/
theorem test_getbits8_empty :
    accepted 0x00000002#32 (operands 0x005A#16 0 State.reset) = some (0#32, 0x00000002#32) := by decide
/-- F1g. -/
theorem test_getbits16 :
    accepted 0x000022E2#32 (operands 0x1234#16 0 State.reset) = some (0x23#32, 0x00000002#32) := by decide
/-- F1h: length 16. -/
theorem test_getbits16_whole :
    accepted 0x000043E2#32 (operands 0xBEEF#16 0 State.reset) = some (0xBEEF#32, 0x00000002#32) := by decide
/-- F7. -/
theorem test_setbits8 :
    accepted 0x00000D43#32 (operands 0x0041#16 0x0005#16 State.reset) = some (0x69#32, 0x00000002#32) := by decide
/-- F5: the value is truncated. -/
theorem test_setbits8_truncates :
    accepted 0x00000C83#32 (operands 0x0000#16 0x00FF#16 State.reset) = some (0x07#32, 0x00000002#32) := by decide
/-- F9. -/
theorem test_setbits16 :
    accepted 0x00001263#32 (operands 0xFFFF#16 0x0015#16 State.reset) = some (0xFD7F#32, 0x00000002#32) := by decide
/-- F10: the field spans both bytes. -/
theorem test_setbits16_spans :
    accepted 0x000022E3#32 (operands 0x00FF#16 0x00AB#16 State.reset) = some (0x0ABF#32, 0x00000002#32) := by decide

/-! ## Register reads and writes -/

/-- RA1. -/
theorem test_rdreg8 :
    sends 0x00750004#32 ready = some [.busWrite 1#32 0x68#16 [0x75#8] false] ∧
    answered 0x00750004#32 [] .done ready =
      some (1#32, 0x0000000B#32, [.busRead 1#32 0x68#16 1 true]) ∧
    answered 0x00750004#32 [.done] (.withData [0x5A#8]) ready = some (0x5A#32, 0x0000000A#32, []) := by decide
/-- RA3 and S5: the index write or the data read fails. -/
theorem test_rdreg8_fails :
    answered 0x00750004#32 [] failed ready = some (0xFFFFFFFF#32, 0x00000008#32, []) ∧
    answered 0x00750004#32 [.done] failed ready = some (0xFFFFFFFF#32, 0x00000008#32, []) := by decide
/-- S3. -/
theorem test_rdreg16 :
    answered 0x003B0024#32 [] .done ready =
      some (1#32, 0x0000000B#32, [.busRead 1#32 0x68#16 2 true]) ∧
    answered 0x003B0024#32 [.done] (.withData [0x12#8, 0x34#8]) ready = some (0x1234#32, 0x0000000A#32, []) := by decide
/-- RA4: 0xFFFF is not -1. -/
theorem test_rdreg16_ones :
    answered 0x003B0024#32 [.done] (.withData [0xFF#8, 0xFF#8]) ready = some (0x0000FFFF#32, 0x0000000A#32, []) := by
  decide
/-- RA5. -/
theorem test_rdregs :
    (after (step (inFlight 0x00100005#32 [.done] (.withData [1#8, 2#8, 3#8]) { ready with cnt := 3#8 }))).map
      (fun t => (t.buf, t.result, statusWord t.status)) =
      some ([(0, 1#8), (1, 2#8), (2, 3#8)], 1#32, 0x0000000A#32) := by decide
/-- RA7: COUNT_RANGE. -/
theorem test_rdregs_count :
    faults (.hostWrite 32 0x000 0x00100005#32) { ready with cnt := 33#8 } = some (0x0000070E#32, 0x00100005#32) := by
  decide
/-- RA8. -/
theorem test_wrreg8 :
    sends 0x006B0006#32 (operands 0 0x0180#16 ready) = some [.busWrite 1#32 0x68#16 [0x6B#8, 0x80#8] true] ∧
    answered 0x006B0006#32 [] .done (operands 0 0x0180#16 ready) = some (1#32, 0x0000000A#32, []) := by decide
/-- RA9. -/
theorem test_wrreg16 :
    sends 0x00200026#32 (operands 0 0xBEEF#16 ready) =
      some [.busWrite 1#32 0x68#16 [0x20#8, 0xBE#8, 0xEF#8] true] := by decide
/-- RA10: the write fails. -/
theorem test_wrreg16_fails :
    answered 0x00200026#32 [] failed (operands 0 0xBEEF#16 ready) = some (0#32, 0x00000008#32, []) := by decide
/-- RA11, S4. -/
theorem test_wrregs :
    sends 0x00100007#32 { ready with cnt := 3#8, buf := [(0, 0xAA#8), (1, 0xBB#8), (2, 0xCC#8)] } =
      some [.busWrite 1#32 0x68#16 [0x10#8, 0xAA#8, 0xBB#8, 0xCC#8] true] := by decide
/-- RA13: no request, BUSY 1, and a failure when BLOCK takes its turn. -/
theorem test_wrregs_count :
    (after (step (writing 0x00100007#32 { ready with cnt := 33#8 }))).map (fun t => (t.bus, statusWord t.status)) =
      some ([], 0x0000000B#32) ∧
    (after (step { inFlight 0x00100007#32 [] .done { ready with cnt := 33#8 } with env := [.block] })).map
      (fun t => (t.result, statusWord t.status)) = some (0#32, 0x00000008#32) := by decide

/-! ## Register bit and bitfield reads -/

/-- RA14, READ_BIT8_NORMALIZE false and true. -/
theorem test_rdregbit8 :
    answered 0x003A01C8#32 [.done] (.withData [0xC4#8]) ready = some (0x80#32, 0x0000000A#32, []) ∧
    answered 0x003A01C8#32 [.done] (.withData [0xC4#8])
        { ready with params := { ready.params with readBit8Normalize := true } } =
      some (1#32, 0x0000000A#32, []) := by decide
/-- RA15, RA17. -/
theorem test_rdregbit8_clear_and_failed :
    answered 0x003A00C8#32 [.done] (.withData [0xC4#8]) ready = some (0#32, 0x0000000A#32, []) ∧
    answered 0x003A00C8#32 [.done] failed ready = some (0xFFFFFFFF#32, 0x00000008#32, []) := by decide
/-- RA18, RA19. -/
theorem test_rdregbit16 :
    answered 0x00400268#32 [.done] (.withData [0x02#8, 0x00#8]) ready = some (1#32, 0x0000000A#32, []) ∧
    answered 0x004003E8#32 [.done] (.withData [0x80#8, 0x00#8]) ready = some (1#32, 0x0000000A#32, []) := by decide
/-- RA20, RA21. -/
theorem test_rdregbf8 :
    answered 0x006B0D49#32 [.done] (.withData [0x69#8]) ready = some (5#32, 0x0000000A#32, []) ∧
    answered 0x006B01C9#32 [.done] (.withData [0x69#8]) ready = some (0#32, 0x0000000A#32, []) := by decide
/-- RA22. -/
theorem test_rdregbf16 :
    answered 0x004012E9#32 [.done] (.withData [0xAB#8, 0xCD#8]) ready = some (0xB#32, 0x0000000A#32, []) := by decide
/-- RA23, RA24. -/
theorem test_rdbits8 :
    sends 0x000090CA#32 ready = some [.busRead 1#32 0x68#16 1 true] ∧
    sends 0x000010CA#32 ready = some [.busRead 1#32 0x68#16 1 false] ∧
    answered 0x000090CA#32 [] (.withData [0xB6#8]) ready = some (6#32, 0x0000000A#32, []) := by decide
/-- RA25. -/
theorem test_rdbits16 :
    answered 0x000093EA#32 [] (.withData [0xA5#8, 0x5A#8]) ready = some (0xA#32, 0x0000000A#32, []) := by decide

/-! ## Read-modify-write -/

/-- M1, M3. -/
theorem test_wrregbit8 :
    answered 0x006B818B#32 [.done] (.withData [0x01#8]) ready =
      some (1#32, 0x0000000B#32, [.busWrite 1#32 0x68#16 [0x6B#8, 0x41#8] true]) ∧
    answered 0x006B800B#32 [.done] (.withData [0x01#8]) ready =
      some (1#32, 0x0000000B#32, [.busWrite 1#32 0x68#16 [0x6B#8, 0x01#8] true]) := by decide
/-- S6: no write after a failed read. M13: the write fails. -/
theorem test_wrregbit8_fails :
    answered 0x006B818B#32 [.done] failed ready = some (0#32, 0x00000008#32, []) ∧
    answered 0x006B818B#32 [.done, .withData [0x01#8]] failed ready = some (0#32, 0x00000008#32, []) := by decide
/-- M4, M5. -/
theorem test_wrregbit16 :
    answered 0x0040832B#32 [.done] (.withData [0x12#8, 0x34#8]) ready =
      some (1#32, 0x0000000B#32, [.busWrite 1#32 0x68#16 [0x40#8, 0x12#8, 0x34#8] true]) ∧
    answered 0x0040032B#32 [.done] (.withData [0x12#8, 0x34#8]) ready =
      some (1#32, 0x0000000B#32, [.busWrite 1#32 0x68#16 [0x40#8, 0x02#8, 0x34#8] true]) := by decide
/-- M6, M7. -/
theorem test_wrregbf8 :
    answered 0x006B0D4C#32 [.done] (.withData [0x41#8]) (operands 0 0x0005#16 ready) =
      some (1#32, 0x0000000B#32, [.busWrite 1#32 0x68#16 [0x6B#8, 0x69#8] true]) ∧
    answered 0x006B01CC#32 [.done] (.withData [0x41#8]) (operands 0 0x0005#16 ready) =
      some (1#32, 0x0000000B#32, [.busWrite 1#32 0x68#16 [0x6B#8, 0x41#8] true]) := by decide
/-- M8. -/
theorem test_wrregbf16 :
    answered 0x004012EC#32 [.done] (.withData [0x12#8, 0x34#8]) (operands 0 0x000C#16 ready) =
      some (1#32, 0x0000000B#32, [.busWrite 1#32 0x68#16 [0x40#8, 0x1C#8, 0x34#8] true]) := by decide
/-- M9, and its end. -/
theorem test_wrbits8 :
    answered 0x000090CD#32 [] (.withData [0xB6#8]) (operands 0 0x0009#16 ready) =
      some (1#32, 0x0000000B#32, [.busWrite 1#32 0x68#16 [0xB9#8] true]) ∧
    answered 0x000090CD#32 [.withData [0xB6#8]] .done (operands 0 0x0009#16 ready) =
      some (1#32, 0x0000000A#32, []) := by decide
/-- M12: the raw read fails. -/
theorem test_wrbits8_fails :
    answered 0x000090CD#32 [] failed (operands 0 0x0009#16 ready) = some (0#32, 0x00000008#32, []) := by decide
/-- M10. -/
theorem test_wrbits16 :
    answered 0x000093ED#32 [] (.withData [0xA5#8, 0x5A#8]) (operands 0 0x0003#16 ready) =
      some (1#32, 0x0000000B#32, [.busWrite 1#32 0x68#16 [0x35#8, 0x5A#8] true]) := by decide

/-! ## The handle -/

/-- H1, H2: `Create` succeeds or fails. -/
theorem test_init :
    sends 0x0000000E#32 State.reset = some [.create 0] ∧
    (after (step (inFlight 0x0000000E#32 [] (.withHandle 1#32)
        { State.reset with status := { Status.reset with initd := true } }))).map
      (fun t => (t.handle, t.result, statusWord t.status)) = some (1#32, 1#32, 0x0000000A#32) ∧
    (after (step (inFlight 0x0000000E#32 [] (.withHandle 0#32)
        { State.reset with status := { Status.reset with initd := true } }))).map
      (fun t => (t.handle, t.result, statusWord t.status)) = some (0#32, 0#32, 0x00000008#32) := by decide
/-- H3, H6: with I2C disabled; a second INIT. -/
theorem test_init_disabled_and_second :
    (after (step (writing 0x0000000E#32 (State.resetWith { Config.reference with i2cEnabled := false })))).map
      (fun t => (t.bus, t.result, statusWord t.status)) = some ([], 1#32, 0x0000000A#32) ∧
    faults (.hostWrite 32 0x000 0x0000000E#32) ready = some (0x0000060E#32, 0x0000000E#32) := by decide
/-- S12, H4. -/
theorem test_getglobal :
    accepted 0x0000000F#32 State.reset = some (0#32, 0x00000002#32) ∧
    accepted 0x0000000F#32 { ready with result := 0#32 } = some (1#32, 0x0000000A#32) := by decide

/-! ## Faults -/

/-- X1 to X4. -/
theorem test_illegal_words :
    faults (.hostWrite 32 0x000 0x00000010#32) State.reset = some (0x00000104#32, 0x00000010#32) ∧
    faults (.hostWrite 32 0x000 0x00000025#32) State.reset = some (0x00000104#32, 0x00000025#32) ∧
    faults (.hostWrite 32 0x000 0x01000000#32) State.reset = some (0x00000104#32, 0x01000000#32) ∧
    faults (.hostWrite 32 0x000 0x01001082#32) State.reset = some (0x00000104#32, 0x01001082#32) := by decide

/-- X5 to X11: BAD_DESCRIPTOR and BAD_BITPOS, also before NO_HANDLE. -/
theorem test_bad_operands :
    faults (.hostWrite 32 0x000 0x00001082#32) State.reset = some (0x00000204#32, 0x00001082#32) ∧
    faults (.hostWrite 32 0x000 0x00000602#32) State.reset = some (0x00000204#32, 0x00000602#32) ∧
    faults (.hostWrite 32 0x000 0x000047E2#32) State.reset = some (0x00000204#32, 0x000047E2#32) ∧
    faults (.hostWrite 32 0x000 0x000014E3#32) State.reset = some (0x00000204#32, 0x000014E3#32) ∧
    faults (.hostWrite 32 0x000 0x00000200#32) State.reset = some (0x00000304#32, 0x00000200#32) ∧
    faults (.hostWrite 32 0x000 0x000083C1#32) State.reset = some (0x00000304#32, 0x000083C1#32) ∧
    faults (.hostWrite 32 0x000 0x006B1089#32) State.reset = some (0x00000204#32, 0x006B1089#32) := by decide

/-- X12, X13: COUNT_RANGE before NO_HANDLE, and WRREGS with NO_HANDLE. -/
theorem test_counts_without_handle :
    faults (.hostWrite 32 0x000 0x00100005#32) { State.reset with cnt := 40#8 } = some (0x00000704#32, 0x00100005#32) ∧
    faults (.hostWrite 32 0x000 0x00100007#32) { State.reset with cnt := 40#8 } = some (0x00000404#32, 0x00100007#32) := by
  decide

/-- X14 to X16, and a 16-bit access. -/
theorem test_host_access :
    faults (.hostRead 32 0x002) State.reset = some (0x00000804#32, 0x00000002#32) ∧
    faults (.hostWrite 32 0x030 0#32) State.reset = some (0x00000804#32, 0x80000030#32) ∧
    faults (.hostRead 32 0x180) State.reset = some (0x00000804#32, 0x00000180#32) ∧
    faults (.hostWrite 16 0x000 0#32) State.reset = some (0x00000804#32, 0x80000000#32) := by decide

/-- X17: a write after a fault is ignored, and reset clears the fault. -/
theorem test_after_a_fault :
    faults (.hostWrite 32 0x000 0x000011C2#32)
        { State.reset with
          status := { Status.reset with fault := true, fcode := .badDescriptor }, finfo := 0x00001082#32 } =
      some (0x00000204#32, 0x00001082#32) ∧
    faults .reset
        { State.reset with
          status := { Status.reset with fault := true, fcode := .badDescriptor }, finfo := 0x00001082#32 } =
      some (0#32, 0#32) := by decide

/-- X18: a write to a read-only register. X19: a write while BUSY; RESULT and OK stay. -/
theorem test_writes_ignored_or_busy :
    faults (.hostWrite 32 0x004 0xFFFFFFFF#32) State.reset = some (0#32, 0#32) ∧
    (after (step { inFlight 0x00750004#32 [] .done ready with env := [.hostWrite 32 0x010 1#32] })).map
      (fun t => (statusWord t.status, t.finfo, t.result, t.seq)) =
      some (0x0000050E#32, 0x80000010#32, 1#32, .idle) := by decide

/-- H7: NO_HANDLE with I2C disabled. -/
theorem test_no_handle :
    faults (.hostWrite 32 0x000 0x00750004#32)
        { State.resetWith { Config.reference with i2cEnabled := false } with
          status := { Status.reset with ok := true, initd := true }, result := 1#32 } =
      some (0x0000040E#32, 0x00750004#32) := by decide

/-! ## The host port -/

/-- R25, R28, R32: bits a register does not define ignore writes; a BUF byte written reads back. -/
theorem test_host_writes :
    (after (step { State.reset with env := [.hostWrite 32 0x00C 0x12345678#32] })).map State.opw = some 0x5678#16 ∧
    (after (step { State.reset with env := [.hostWrite 32 0x018 0x12345678#32] })).map State.cnt = some 0x78#8 ∧
    (after (step { State.reset with env := [.hostWrite 32 0x17C 0x12345678#32] })).map State.buf =
      some [(31, 0x78#8)] ∧
    (after (step { State.reset with buf := [(31, 0x78#8)], env := [.hostRead 32 0x17C] })).map State.hostData =
      some 0x78#32 := by decide

/-- R31: PARAMS in the reference configuration with I2C enabled. -/
theorem test_params :
    (after (step { State.reset with env := [.hostRead 32 0x024] })).map State.hostData = some 0x00000220#32 := by decide

/-- The canonical form of BUF: two writes in either order are one memory. -/
theorem test_memory_form :
    Memory.write (Memory.write [] 2 7#8) 1 9#8 = Memory.write (Memory.write [] 1 9#8) 2 7#8 ∧
    (Memory.write (Memory.write [] 2 7#8) 1 9#8).wf := by decide

/-- P1's first access, a computation, a branch and `WAIT`'s read, by the HOST. -/
theorem test_host_program :
    (match systemStep .host (System.begin [.wr .opw (.const 0xA5#32)] State.reset) with
      | .next y => some (y.block.opw, y.host.pos)
      | .fault _ => none
      | .refused _ => none) = some (0x00A5#16, 1) ∧
    evalExpr [3#32] (.shl (.temp 0) (.const 6#32)) = 0xC0#32 ∧ evalExpr [] (.sub (.temp 5) (.const 1#32)) = 0xFFFFFFFF#32 ∧
    evalCond [8#32] (.lt (.temp 0) (.const 8#32)) = false ∧ hostCmd (.getbits8 7 4) = .wr .cmd (.const 0x000011C2#32) ∧
    (System.begin [.halt] State.reset).endedWell = true := by decide

/-! ## Witnesses: concrete states and operands that meet the hypotheses of the statements -/

theorem ready_ready : ready.Ready := ⟨rfl, rfl, rfl⟩

theorem reset_ready : State.reset.Ready := ⟨rfl, rfl, rfl⟩

theorem ready_inv : ready.Inv where
  params := by decide
  bufForm := List.Pairwise.nil
  bufRange := fun _ h => absurd h List.not_mem_nil
  busy := by decide
  faultIdle := fun _ => rfl
  code := by decide
  info := fun _ => rfl
  handle := fun _ => ⟨rfl, rfl⟩
  running := fun _ _ _ h => by cases h

/-- RDREG.8 0x75 running, its index write outstanding. -/
def reading (env : List Event) : State := { inFlight 0x00750004#32 [] .done ready with env := env }

theorem reading_inv (env : List Event) : (reading env).Inv where
  params := show 1 ≤ 32 ∧ 32 ≤ 64 by decide
  bufForm := List.Pairwise.nil
  bufRange := fun _ h => absurd h List.not_mem_nil
  busy := ⟨fun _ h => (by cases h), fun _ => rfl⟩
  faultIdle := fun h => Bool.noConfusion h
  code := by simp [reading, inFlight, ready]
  info := fun _ => rfl
  handle := fun _ => ⟨rfl, rfl⟩
  running := by
    intro c o replies h
    cases h
    refine ⟨rfl, ⟨rfl, rfl, rfl, rfl, rfl⟩, ⟨.rdreg8 0x75#8, by decide, .inl ⟨by decide, show (1#32 : Word) ≠ 0#32 by decide⟩, .inl ⟨_, rfl⟩⟩, ?_⟩
    intro reg hd
    have e : decode 0x00750004#32 = .ok (.rdreg8 0x75#8) := by decide
    rw [e] at hd
    cases hd

/-- RDREGS 0x10 of three bytes, its data read outstanding: the case in which a fault or a failure touches BUF. -/
def filling (env : List Event) : State :=
  { inFlight 0x00100005#32 [.done] .done { ready with cnt := 3#8 } with env := env }

theorem witness_EncodeDecodeOnUsedBits :
    decode 0x00FFFDC0#32 = .ok (.getbit8 7) ∧ decode 0x000093ED#32 = .ok (.wrbits16 15 4 true) := by decide

theorem witness_IgnoredFieldsDoNotDecode :
    decode 0x000001C0#32 = .ok (.getbit8 7) ∧
    0x000001C0#32 &&& usedBits (.getbit8 7) = 0x00FFFDC0#32 &&& usedBits (.getbit8 7) := by decide

theorem witness_IllegalWordsRaiseIllegalCmd :
    ready.Ready ∧ decode 0x00000010#32 = .illegal .reservedOpcode ∧ decode 0x00000025#32 = .illegal .noWordForm ∧
    decode 0xFF000000#32 = .illegal .reservedBits ∧
    (writing 0x00000010#32 ready).Ready ∧ (writing 0x00000010#32 ready).env = .hostWrite 32 0x000 0x00000010#32 :: [] :=
  ⟨ready_ready, by decide, by decide, by decide, ⟨rfl, rfl, rfl⟩, rfl⟩

theorem witness_StepRunsTheDecodedCommand :
    (writing 0x000001C0#32 ready).Ready ∧ (writing 0x000001C0#32 ready).env = .hostWrite 32 0x000 0x000001C0#32 :: [] ∧
    decode 0x000001C0#32 = .ok (.getbit8 7) := ⟨⟨rfl, rfl, rfl⟩, rfl, by decide⟩

/-- Both widths, with the last position, a neighbour, the whole field and the empty one. -/
theorem witness_BitfieldLaws :
    (0xFF < 2 ^ Width.w8.bits ∧ 7 < Width.w8.bits ∧ 6 < Width.w8.bits ∧ 6 ≠ 7 ∧ 8 ≤ 7 + 1 ∧ 0xFF < 2 ^ 8 ∧
      ¬(7 + 1 - 0 ≤ 7 ∧ 7 ≤ 7)) ∧
    (0xFFFF < 2 ^ Width.w16.bits ∧ 15 < Width.w16.bits ∧ 0 < Width.w16.bits ∧ 0 ≠ 15 ∧ 16 ≤ 15 + 1 ∧ 0xFFFF < 2 ^ 16 ∧
      ¬(15 + 1 - 4 ≤ 11 ∧ 11 ≤ 15)) := by decide

theorem witness_BitfieldResultsFitTheWidth :
    (0xFF < 2 ^ Width.w8.bits ∧ 7 < Width.w8.bits ∧ 8 ≤ 7 + 1) ∧
    (0xFFFF < 2 ^ Width.w16.bits ∧ 15 < Width.w16.bits ∧ 16 ≤ 15 + 1) := by decide

theorem witness_GetbitReadsTheBit : (7#4).toNat < 8 ∧ (0#4).toNat < 8 := by decide
theorem witness_SetbitChangesOneBit : (7#4).toNat < 8 ∧ (0#4).toNat < 8 := by decide
theorem witness_GetbitsExtractsTheField :
    ((8#5).toNat ≤ (7#4).toNat + 1 ∧ (7#4).toNat < 8) ∧ (0#5).toNat ≤ (0#4).toNat + 1 ∧ (16#5).toNat ≤ (15#4).toNat + 1 := by
  decide
theorem witness_SetbitsReplacesTheField :
    ((8#5).toNat ≤ (7#4).toNat + 1 ∧ (7#4).toNat < 8) ∧ (0#5).toNat ≤ (0#4).toNat + 1 ∧ (16#5).toNat ≤ (15#4).toNat + 1 := by
  decide

/-- A ready state with a command in CMD and answers to come. -/
def holding (c : Word) (env : List Event) : State := { ready with cmd := c, env := env }

theorem witness_RdregReturnsTheRegister :
    (holding 0x00750004#32 []).handle ≠ 0#32 ∧ decode (holding 0x00750004#32 []).cmd = .ok (.rdreg8 0x75#8) ∧
    decode (holding 0x003B0024#32 []).cmd = .ok (.rdreg16 0x3B#8) ∧
    (holding 0x00750004#32 [.answer .done, .answer (.withData [0x5A#8])]).env =
      .answer .done :: .answer (.withData [0x5A#8]) :: [] ∧
    (holding 0x003B0024#32 [.answer .done, .answer (.withData [0x12#8, 0x34#8])]).env =
      .answer .done :: .answer (.withData [0x12#8, 0x34#8]) :: [] := by decide

/-- The smallest and the largest count. -/
theorem witness_RdregsFillsTheBuffer :
    (holding 0x00100005#32 []).handle ≠ 0#32 ∧ { ready with cnt := 0#8 }.cnt.toNat ≤ ready.params.maxN ∧
    { ready with cnt := 32#8 }.cnt.toNat ≤ ready.params.maxN ∧ decode 0x00100005#32 = .ok (.rdregs 0x10#8) ∧
    (holding 0x00100005#32 [.answer .done, .answer (.withData [])]).env =
      .answer .done :: .answer (.withData []) :: [] := by decide

theorem witness_WrregSendsOneTransaction :
    (holding 0x006B0006#32 [.answer .done]).handle ≠ 0#32 ∧
    decode (holding 0x006B0006#32 [.answer .done]).cmd = .ok (.wrreg8 0x6B#8) ∧
    decode (holding 0x00200026#32 [.answer .done]).cmd = .ok (.wrreg16 0x20#8) ∧
    (holding 0x00200026#32 [.answer .done]).env = .answer .done :: [] := by decide

theorem witness_WrregsSendsTheBuffer :
    (holding 0x00100007#32 [.answer .done]).handle ≠ 0#32 ∧ { ready with cnt := 0#8 }.cnt.toNat ≤ ready.params.maxN ∧
    { ready with cnt := 32#8 }.cnt.toNat ≤ ready.params.maxN ∧
    decode (holding 0x00100007#32 [.answer .done]).cmd = .ok (.wrregs 0x10#8) ∧
    (holding 0x00100007#32 [.answer .done]).env = .answer .done :: [] := by decide

theorem witness_WrregsBeyondMaxNFails :
    ready.handle ≠ 0#32 ∧ ready.params.maxN < { ready with cnt := 33#8 }.cnt.toNat ∧
    decode (holding 0x00100007#32 [.block]).cmd = .ok (.wrregs 0x10#8) ∧
    (holding 0x00100007#32 [.block]).env = .block :: [] := by decide

theorem witness_RdregbitReadsTheBit :
    ready.handle ≠ 0#32 ∧ (7#4).toNat < 8 ∧ decode (holding 0x003A01C8#32 []).cmd = .ok (.rdregbit8 0x3A#8 7) ∧
    decode (holding 0x00400268#32 []).cmd = .ok (.rdregbit16 0x40#8 9) ∧
    (holding 0x003A01C8#32 [.answer .done, .answer (.withData [0xC4#8])]).env =
      .answer .done :: .answer (.withData [0xC4#8]) :: [] ∧
    (holding 0x00400268#32 [.answer .done, .answer (.withData [0x02#8, 0x00#8])]).env =
      .answer .done :: .answer (.withData [0x02#8, 0x00#8]) :: [] := by decide

theorem witness_RdregbfReadsTheField :
    ready.handle ≠ 0#32 ∧ (3#5).toNat ≤ (5#4).toNat + 1 ∧ (5#4).toNat < 8 ∧ (4#5).toNat ≤ (11#4).toNat + 1 ∧
    decode (holding 0x006B0D49#32 []).cmd = .ok (.rdregbf8 0x6B#8 5 3) ∧
    decode (holding 0x004012E9#32 []).cmd = .ok (.rdregbf16 0x40#8 11 4) ∧
    (holding 0x006B0D49#32 [.answer .done, .answer (.withData [0x69#8])]).env =
      .answer .done :: .answer (.withData [0x69#8]) :: [] ∧
    (holding 0x004012E9#32 [.answer .done, .answer (.withData [0xAB#8, 0xCD#8])]).env =
      .answer .done :: .answer (.withData [0xAB#8, 0xCD#8]) :: [] := by decide

theorem witness_RdbitsReadsTheRawField :
    ready.handle ≠ 0#32 ∧ (4#5).toNat ≤ (3#4).toNat + 1 ∧ (3#4).toNat < 8 ∧ (4#5).toNat ≤ (15#4).toNat + 1 ∧
    decode (holding 0x000090CA#32 []).cmd = .ok (.rdbits8 3 4 true) ∧
    decode (holding 0x000093EA#32 []).cmd = .ok (.rdbits16 15 4 true) ∧
    (holding 0x000090CA#32 [.answer (.withData [0xB6#8])]).env = .answer (.withData [0xB6#8]) :: [] ∧
    (holding 0x000093EA#32 [.answer (.withData [0xA5#8, 0x5A#8])]).env = .answer (.withData [0xA5#8, 0x5A#8]) :: [] := by
  decide

theorem witness_WrregbitWritesTheBit :
    ready.handle ≠ 0#32 ∧ (6#4).toNat < 8 ∧ decode (holding 0x006B818B#32 []).cmd = .ok (.wrregbit8 0x6B#8 6 true) ∧
    decode (holding 0x0040032B#32 []).cmd = .ok (.wrregbit16 0x40#8 12 false) ∧
    (holding 0x006B818B#32 [.answer .done, .answer (.withData [0x01#8]), .answer .done]).env =
      .answer .done :: .answer (.withData [0x01#8]) :: .answer .done :: [] ∧
    (holding 0x0040032B#32 [.answer .done, .answer (.withData [0x12#8, 0x34#8]), .answer .done]).env =
      .answer .done :: .answer (.withData [0x12#8, 0x34#8]) :: .answer .done :: [] := by decide

theorem witness_WrregbfWritesTheField :
    ready.handle ≠ 0#32 ∧ (3#5).toNat ≤ (5#4).toNat + 1 ∧ (5#4).toNat < 8 ∧ (4#5).toNat ≤ (11#4).toNat + 1 ∧
    decode (holding 0x006B0D4C#32 []).cmd = .ok (.wrregbf8 0x6B#8 5 3) ∧
    decode (holding 0x004012EC#32 []).cmd = .ok (.wrregbf16 0x40#8 11 4) ∧
    (holding 0x006B0D4C#32 [.answer .done, .answer (.withData [0x41#8]), .answer .done]).env =
      .answer .done :: .answer (.withData [0x41#8]) :: .answer .done :: [] ∧
    (holding 0x004012EC#32 [.answer .done, .answer (.withData [0x12#8, 0x34#8]), .answer .done]).env =
      .answer .done :: .answer (.withData [0x12#8, 0x34#8]) :: .answer .done :: [] := by decide

theorem witness_WrbitsWritesTheRawField :
    ready.handle ≠ 0#32 ∧ (4#5).toNat ≤ (3#4).toNat + 1 ∧ (3#4).toNat < 8 ∧ (4#5).toNat ≤ (15#4).toNat + 1 ∧
    decode (holding 0x000090CD#32 []).cmd = .ok (.wrbits8 3 4 true) ∧
    decode (holding 0x000093ED#32 []).cmd = .ok (.wrbits16 15 4 true) ∧
    (holding 0x000090CD#32 [.answer (.withData [0xB6#8]), .answer .done]).env =
      .answer (.withData [0xB6#8]) :: .answer .done :: [] ∧
    (holding 0x000093ED#32 [.answer (.withData [0xA5#8, 0x5A#8]), .answer .done]).env =
      .answer (.withData [0xA5#8, 0x5A#8]) :: .answer .done :: [] := by decide

/-- Program P3's two commands: WRREGBF.8 0x6B, 5, 3 and RDREGBF.8 of the same field, the device byte 0x41 before, 0x69 after. -/
def roundTrip : State :=
  { operands 0 0x0005#16 ready with
    env :=
      [.hostWrite 32 0x000 (encode (.wrregbf8 0x6B#8 5 3)), .answer .done, .answer (.withData [0x41#8]), .answer .done,
        .hostWrite 32 0x000 (encode (.rdregbf8 0x6B#8 5 3)), .answer .done, .answer (.withData [0x69#8])] }

theorem witness_FieldWriteThenReadRoundTrip :
    (roundTrip.Ready ∧ roundTrip.handle ≠ 0#32 ∧ (5#4).toNat < Width.w8.bits ∧ (3#5).toNat ≤ (5#4).toNat + 1 ∧
      [0x41#8].length = Width.w8.bytes) ∧
    (after (steps 4 roundTrip)).map (fun t => t.bus.getLast?) =
      some (some (.busWrite roundTrip.handle roundTrip.dev (0x6B#8 :: [0x69#8]) true)) :=
  ⟨⟨⟨rfl, rfl, rfl⟩, by decide, by decide, by decide, rfl⟩, by decide⟩

/-- The same at width 16, the bytes and the field those of the example of R153. -/
def roundTrip16 : State :=
  { operands 0 0x0003#16 ready with
    env :=
      [.hostWrite 32 0x000 (encode (.wrregbf16 0x3B#8 15 4)), .answer .done, .answer (.withData [0xA5#8, 0x5A#8]),
        .answer .done, .hostWrite 32 0x000 (encode (.rdregbf16 0x3B#8 15 4)), .answer .done,
        .answer (.withData [0x35#8, 0x5A#8])] }

theorem witness_FieldWriteThenReadRoundTrip_width16 :
    (roundTrip16.Ready ∧ roundTrip16.handle ≠ 0#32 ∧ (15#4).toNat < Width.w16.bits ∧ (4#5).toNat ≤ (15#4).toNat + 1 ∧
      [0xA5#8, 0x5A#8].length = Width.w16.bytes) ∧
    (after (steps 4 roundTrip16)).map (fun t => t.bus.getLast?) =
      some (some (.busWrite roundTrip16.handle roundTrip16.dev (0x3B#8 :: [0x35#8, 0x5A#8]) true)) :=
  ⟨⟨⟨rfl, rfl, rfl⟩, by decide, by decide, by decide, rfl⟩, by decide⟩

/-- I2C disabled, and enabled with both answers of `Create`. -/
theorem witness_InitCreatesTheHandle :
    State.reset.status.initd = false ∧ (State.resetWith { Config.reference with i2cEnabled := false }).params.i2cEnabled = false ∧
    State.reset.params.i2cEnabled = true ∧ decode { State.reset with cmd := 0x0000000E#32 }.cmd = .ok .init ∧
    { State.reset with env := [.answer (.withHandle 1#32)] }.env = .answer (.withHandle 1#32) :: [] ∧ (1#32 : Word) ≠ 0#32 := by
  decide

theorem witness_SecondInitRaisesReinit : ready.Ready ∧ ready.status.initd = true := ⟨ready_ready, rfl⟩

/-- A step that creates the handle, one that keeps it, and one with I2C disabled. -/
theorem witness_HandleIsCreatedAtMostOnce :
    (reading []).Inv ∧ (reading []).handle ≠ 0#32 ∧ (reading []).env.head? ≠ some .reset ∧
    (after (step (reading []))).isSome = true ∧
    (after (step (inFlight 0x0000000E#32 [] (.withHandle 1#32)
        { State.reset with status := { Status.reset with initd := true } }))).map State.handle = some 1#32 :=
  ⟨reading_inv [], by decide, by decide, by decide, by decide⟩

/-- The three cases of the fault entry; the running command with and without touched bytes. -/
theorem witness_FaultEntry :
    { ready with status := { ready.status with fault := true } }.status.fault = true ∧
    (ready.status.fault = false ∧ ready.seq = .idle) ∧ ((reading []).status.fault = false ∧ (reading []).seq ≠ .idle) ∧
    touchedBytes (reading []).seq = 0 ∧ touchedBytes (filling []).seq = 3 := by decide

/-- A faulted block and each kind of event the clauses name. -/
theorem witness_FaultPersistsUntilReset :
    ((raiseFault .hostAccess 2#32 ready).status.fault = true ∧ (raiseFault .hostAccess 2#32 ready).seq = .idle) ∧
    regAt ready.params.maxN 0x17C = some (.buf 31) ∧ regAt ready.params.maxN 0x000 = some .cmd ∧
    regAt ready.params.maxN 0x180 = none ∧ Event.block ≠ .reset := by decide

/-- The ends of the mapped offsets, and a running command with and without touched bytes. -/
theorem witness_WriteWhileBusyRaisesBusyWrite :
    (reading [.hostWrite 32 0x024 0#32]).status.busy = true ∧ (reading []).status.fault = false ∧ (reading []).seq ≠ .idle ∧
    (0x000 % 4 = 0 ∧ 0x000 ≤ 0x24) ∧ (0x024 % 4 = 0 ∧ 0x024 ≤ 0x24) ∧
    (0x100 % 4 = 0 ∧ 0x100 ≤ 0x100 ∧ 0x100 < 0x100 + 4 * ready.params.maxN) ∧
    (0x17C % 4 = 0 ∧ 0x100 ≤ 0x17C ∧ 0x17C < 0x100 + 4 * ready.params.maxN) ∧ ready.params.wf ∧
    (reading [.hostWrite 32 0x024 0#32]).env = .hostWrite 32 0x024 0#32 :: [] ∧
    ((filling []).status.busy = true ∧ touchedBytes (filling []).seq = 3) := by decide

/-- A wrong size, a misaligned offset, and unmapped offsets on both sides of the gap and past BUF. -/
theorem witness_IllegalAccessRaisesHostAccess :
    (ready.status.fault = false ∧ ready.seq = .idle ∧ ready.status.busy = false) ∧ (filling []).status.fault = false ∧
    ¬(16 = 32 ∧ 0x000 % 4 = 0) ∧ ¬(0x002 % 4 = 0) ∧ ¬(0x028 ≤ 0x24 ∨ (0x100 ≤ 0x028 ∧ 0x028 < 0x180)) ∧
    ¬(0x0FC ≤ 0x24 ∨ (0x100 ≤ 0x0FC ∧ 0x0FC < 0x180)) ∧
    ¬(0x180 ≤ 0x24 ∨ (0x100 ≤ 0x180 ∧ 0x180 < 0x100 + 4 * ready.params.maxN)) ∧
    { ready with env := [.hostRead 32 0x180] }.env = .hostRead 32 0x180 :: [] ∧
    { ready with env := [.hostWrite 16 0x000 0#32] }.env = .hostWrite 16 0x000 0#32 :: [] := by decide

theorem witness_BadBitPositionFaults : ready.Ready ∧ 8 ≤ (8#4).toNat ∧ 8 ≤ (15#4).toNat := ⟨ready_ready, by decide, by decide⟩

/-- Either half of the condition at its edge, for both widths; at width 16 every encodable start is below 16. -/
theorem witness_BadDescriptorFaults :
    ready.Ready ∧ 8 ≤ (8#4).toNat ∧ (7#4).toNat + 1 < (9#5).toNat ∧ (15#4).toNat + 1 < (17#5).toNat :=
  ⟨ready_ready, by decide, by decide, by decide⟩

theorem witness_BusCommandWithoutHandleFaults :
    State.reset.Ready ∧ State.reset.handle = 0#32 ∧ isBusCommand (.rdregs 0x10#8) ∧
    (Instr.rdregs 0x10#8).wellFormed = true ∧ { State.reset with cnt := 32#8 }.cnt.toNat ≤ State.reset.params.maxN :=
  ⟨reset_ready, rfl, by decide, rfl, by decide⟩

theorem witness_RdregsBeyondMaxNRaisesCountRange :
    ready.Ready ∧ ready.params.maxN < { ready with cnt := 33#8 }.cnt.toNat := ⟨ready_ready, by decide⟩

/-- A failing answer to each kind of request, with and without touched bytes. -/
theorem witness_TransportFailureEndsTheCommand :
    ((reading [.answer failed]).seq = .running 0x00750004#32 (latch ready) [] ∧
      decode 0x00750004#32 = .ok (.rdreg8 0x75#8) ∧
      outstanding (reading [.answer failed]) = some (.busWrite 1#32 0x68#16 [0x75#8] false) ∧
      Answer.fails (.busWrite 1#32 0x68#16 [0x75#8] false) failed ∧
      (reading [.answer failed]).env = .answer failed :: []) ∧
    (outstanding (filling []) = some (.busRead 1#32 0x68#16 3 true) ∧ Answer.fails (.busRead 1#32 0x68#16 3 true) failed ∧
      touchedBytes (filling []).seq = 3) ∧ Answer.fails (.create 0) failed :=
  ⟨⟨rfl, by decide, rfl, rfl, rfl⟩, ⟨rfl, rfl, by decide⟩, rfl⟩

theorem witness_OperandRegisterWrites :
    (ready.status.busy = false ∧ ready.status.fault = false) ∧
    { ready with env := [.hostWrite 32 0x018 0xFFFFFFFF#32] }.env = .hostWrite 32 0x018 0xFFFFFFFF#32 :: [] := by decide

theorem witness_ReadOnlyWritesAreIgnored :
    ready.status.busy = false ∧ 0x004 ∈ [0x004, 0x008, 0x01C, 0x020, 0x024] ∧ 0x024 ∈ [0x004, 0x008, 0x01C, 0x020, 0x024] ∧
    { ready with env := [.hostWrite 32 0x024 1#32] }.env = .hostWrite 32 0x024 1#32 :: [] := by decide

/-- The first and the last byte of BUF. -/
theorem witness_BufWritesOneByte :
    ready.status.busy = false ∧ ready.status.fault = false ∧ 0 < ready.params.maxN ∧ 31 < ready.params.maxN ∧ ready.buf.wf ∧
    { ready with env := [.hostWrite 32 (0x100 + 4 * 31) 1#32] }.env = .hostWrite 32 (0x100 + 4 * 31) 1#32 :: [] := by decide

theorem witness_HostReadsReturnTheRegisters :
    { ready with env := [.hostRead 32 0x024] }.env = .hostRead 32 0x024 :: [] ∧ (0x024 % 4 = 0 ∧ 0x024 ≤ 0x24) ∧
    (0x17C % 4 = 0 ∧ 0x100 ≤ 0x17C ∧ 0x17C < 0x100 + 4 * ready.params.maxN) ∧ ready.status.busy = false ∧
    (0x17C = 0x100 + 4 * 31 ∧ { ready with buf := [(31, 0x78#8)] }.buf.read 31 = some 0x78#8) ∧
    (0x100 = 0x100 + 4 * 0 ∧ ready.buf.read 0 = none) := by decide

theorem witness_ReadsWhileBusy :
    (reading [.hostRead 32 0x004]).status.busy = true ∧
    (reading [.hostRead 32 0x004]).env = .hostRead 32 0x004 :: [] ∧ (0x004 % 4 = 0 ∧ 0x004 ≤ 0x24) ∧
    (0x17C % 4 = 0 ∧ 0x100 ≤ 0x17C ∧ 0x17C < 0x100 + 4 * ready.params.maxN) := by decide

theorem witness_ResetEventSetsEveryRegister :
    (reading [.reset]).env = .reset :: [] ∧ (reading [.reset, .answer .done]).env = .reset :: .answer .done :: [] ∧
    (reading [.lateAnswer .done]).env = .lateAnswer .done :: [] := by decide

theorem witness_InvariantIsKept :
    ready.Inv ∧ (reading [.answer .done]).Inv ∧ (after (step (reading [.answer .done]))).isSome = true :=
  ⟨ready_inv, reading_inv _, by decide⟩

theorem witness_ResetHasTheInvariant :
    { Config.reference with maxN := 1 }.wf ∧ { Config.reference with maxN := 64 }.wf := by decide

theorem witness_ParametersAreConstant : (after (step ready)).isSome = true := by decide

/-- Each register's change, and the two ways BUF changes. -/
theorem witness_OnlyTheHostWritesOperands :
    (after (step { ready with env := [.hostWrite 32 0x00C 1#32] })).map State.opw = some 1#16 ∧
    (after (step { ready with env := [.hostWrite 32 0x010 1#32] })).map State.opv = some 1#16 ∧
    (after (step { ready with env := [.hostWrite 32 0x014 1#32] })).map State.dev = some 1#16 ∧
    (after (step { ready with env := [.hostWrite 32 0x018 1#32] })).map State.cnt = some 1#8 ∧
    (after (step { ready with env := [.hostWrite 32 0x100 1#32] })).map State.buf = some [(0, 1#8)] ∧
    (after (step (filling [.answer (.withData [1#8, 2#8, 3#8])]))).map State.buf =
      some [(0, 1#8), (1, 2#8), (2, 3#8)] := by decide

/-- A step that sends a request and one that sends none. -/
theorem witness_OneRequestAtATime :
    (reading [.answer .done]).Inv ∧
    (after (step (reading [.answer .done]))).map State.bus = some [.busRead 1#32 0x68#16 1 true] ∧
    (after (step (reading []))).map State.bus = some [] := ⟨reading_inv _, by decide, by decide⟩

/-- RESULT changes as a command completes at once, and as a running one completes. -/
theorem witness_ResultChangesOnlyAtCompletion :
    (reading [.answer failed]).Inv ∧
    (after (step (reading [.answer failed]))).map State.result = some 0xFFFFFFFF#32 ∧ (reading []).result = 1#32 ∧
    (reading [.answer failed]).env.head? ≠ some .reset ∧
    accepted 0x000001C0#32 ready = some (0#32, 0x0000000A#32) := ⟨reading_inv _, by decide, rfl, by decide, by decide⟩

theorem witness_RunningCommandIsFixed :
    (reading [.answer .done]).Inv ∧ (reading [.answer .done]).seq = .running 0x00750004#32 (latch ready) [] ∧
    (after (step (reading [.answer .done]))).isSome = true := ⟨reading_inv _, rfl, by decide⟩

/-- No event, BLOCK's turn, a late answer, a legal read. -/
theorem witness_WithoutAnAnswerTheCommandWaits :
    (reading []).status.busy = true ∧ outstanding (reading []) = some (.busWrite 1#32 0x68#16 [0x75#8] false) ∧
    (after (step (reading []))).isSome = true ∧ (reading []).env = [] ∧
    (reading [.block]).env.head? = some .block ∧ (reading [.lateAnswer .done]).env.head? = some (.lateAnswer .done) ∧
    ((reading [.hostRead 32 0x024]).env.head? = some (.hostRead 32 0x024) ∧ 0x024 % 4 = 0 ∧ 0x024 ≤ 0x24) ∧
    ((reading [.hostRead 32 0x17C]).env.head? = some (.hostRead 32 0x17C) ∧ 0x17C % 4 = 0 ∧ 0x100 ≤ 0x17C ∧
      0x17C < 0x100 + 4 * (reading [.hostRead 32 0x17C]).params.maxN) := by decide

theorem witness_SentinelAgreesWithOk :
    (reading [.answer failed]).seq = .running 0x00750004#32 (latch ready) [] ∧
    decode 0x00750004#32 = .ok (.rdreg8 0x75#8) ∧ commandClass (.rdreg8 0x75#8) = .value ∧
    (reading [.answer failed]).env.head? = some (.answer failed) ∧
    (after (step (reading [.answer failed]))).map State.seq = some .idle := by decide

theorem witness_AnsweredCommandCompletes :
    (reading [.answer .done, .answer failed, .answer failed]).Inv ∧
    (reading [.answer .done, .answer failed, .answer failed]).status.busy = true ∧
    outstanding (reading [.answer .done, .answer failed, .answer failed]) ≠ none ∧
    (reading [.answer .done, .answer failed, .answer failed]).env =
      .answer .done :: .answer failed :: .answer failed :: [] := ⟨reading_inv _, rfl, by decide, rfl⟩

theorem witness_HostComputationTouchesNoRegister :
    (System.begin [.assign 0 (.const 1#32)] ready).program[(System.begin [] ready).host.pos]? =
      some (.assign 0 (.const 1#32)) ∧
    (∀ r e, HostOp.assign 0 (.const 1#32) ≠ .wr r e) ∧ ∀ t r, HostOp.assign 0 (.const 1#32) ≠ .rd t r :=
  ⟨by decide, fun _ _ => HostOp.noConfusion, fun _ _ => HostOp.noConfusion⟩

theorem witness_WaitEndsWhenNotBusy :
    (System.begin (hostWait 0 0) (reading [])).program[0]? = some (.rd 0 .status) ∧
    (System.begin (hostWait 0 0) (reading [])).program[0 + 1]? = some (.ifGoto (.bit 0 0 true) 0) ∧
    (System.begin (hostWait 0 0) ready).program[0]? = some (.rd 0 .status) := by decide

end Sys2Proof.Tests
end

section
/-! The laws of the bitfield unit (40_bitfield_algebra.md R111), each read off the bits `testBit_setBit` and `testBit_setBits` give. -/

namespace Sys2Proof.Machine

/-- R111, law 1. -/
theorem getBit_setBit_same (w : Width) (d : Bool) {p x : Nat} (hp : p < w.bits) (hx : x < 2 ^ w.bits) :
    getBit (setBit w d p x) p = d.toNat := by
  rw [getBit_eq, testBit_setBit w d p hp hx, if_pos rfl]

/-- R111, law 2; `q` need not be a valid position. -/
theorem getBit_setBit_of_ne (w : Width) (d : Bool) {p q x : Nat} (hp : p < w.bits) (hx : x < 2 ^ w.bits)
    (hne : q ≠ p) : getBit (setBit w d p x) q = getBit x q := by
  rw [getBit_eq, getBit_eq, testBit_setBit w d q hp hx, if_neg hne]

/-- R109, R111 law 3: the field read back is the low `len` bits of the value written. -/
theorem getBits_setBits (w : Width) {x bs len : Nat} (v : Nat) (hx : x < 2 ^ w.bits) (hb : bs < w.bits)
    (hl : len ≤ bs + 1) : getBits (setBits w x bs len v) bs len = v % 2 ^ len := by
  apply Nat.eq_of_testBit_eq
  intro q
  rw [testBit_getBits, testBit_setBits w v _ hx hb hl, Nat.testBit_mod_two_pow]
  by_cases hq : q < len
  · rw [if_pos (by omega), Nat.add_sub_cancel_left]
  · simp [hq]

/-- R111, law 4. -/
theorem testBit_setBits_of_outside (w : Width) {x bs len q : Nat} (v : Nat) (hx : x < 2 ^ w.bits) (hb : bs < w.bits)
    (hl : len ≤ bs + 1) (hq : ¬(bs + 1 - len ≤ q ∧ q ≤ bs)) : (setBits w x bs len v).testBit q = x.testBit q := by
  rw [testBit_setBits w v q hx hb hl, if_neg hq]

/-- Settles O8: the four laws of R111, one lemma each. -/
theorem bitfieldLaws : Obligations.BitfieldLaws := by
  intro w x hx
  refine ⟨fun p hp => ⟨getBit_setBit_same w true hp hx, getBit_setBit_same w false hp hx⟩,
    fun d p q hp _ hne => getBit_setBit_of_ne w d hp hx hne, fun bs len hb hl => ⟨fun v hv => ?_, fun v q _ hq => ?_⟩⟩
  · rw [getBits_setBits w v hx hb hl, Nat.mod_eq_of_lt hv]
  · exact testBit_setBits_of_outside w v hx hb hl hq

end Sys2Proof.Machine
end

section
/-! What writes HANDLE (42_global_handle.md R182): the frame of HANDLE over each shared operation, then over a step. -/

namespace Sys2Proof.Machine

/-! ## HANDLE over the shared operations -/

@[simp] theorem raiseFault_handle (code : FaultCode) (info : Word) (s : State) :
    (raiseFault code info s).handle = s.handle := by rw [raiseFault_frame]

@[simp] theorem start_handle (p : Proc) (o : Latched) (s : State) : (start p o s).handle = s.handle := by
  cases p <;> rfl

theorem applyFinish_handle {f : Finish} (s : State) (h : f.newHandle = none) : (applyFinish f s).handle = s.handle := by
  rw [applyFinish_eq, h]; rfl

/-- Accepting a command leaves HANDLE as it is: INIT too writes it only when `Create` is answered. -/
theorem exec_handle {i : Instr} {s t : State} (h : exec i s = .next t) : t.handle = s.handle := by
  rcases exec_cases h with ⟨code, -, rfl⟩ | ⟨-, -, r, rfl⟩ | ⟨-, -, -, rfl⟩ | ⟨-, -, -, rfl⟩ | ⟨-, -, -, _, _, q, -, rfl⟩
  · exact raiseFault_handle ..
  · rfl
  · rfl
  · exact start_handle ..
  · exact start_handle ..

/-! ## HANDLE over a step -/

/-- An answer writes HANDLE only while INIT runs. -/
theorem advance_handle {s t : State} {r : Request} {next : Answer → Proc} {n : Nat} {a : Answer}
    (hp : pending s = some (.request r next)) :
    (advance (next (delivered r n a)) t).handle = t.handle ∨
      ∃ c o replies, s.seq = .running c o replies ∧ decode c = .ok .init := by
  cases hn : next (delivered r n a) with
  | request r' next' => exact .inl rfl
  | finish f =>
    obtain ⟨c, o, replies, i, q, hs, hd, hq, hr⟩ := pending_some hp
    obtain ⟨-, hnone | ⟨rfl, -⟩⟩ := answer_finish hq hr.symm hn
    · exact .inl (applyFinish_handle t hnone)
    · exact .inr ⟨c, o, replies, hs, hd⟩

/-- A command that ends at BLOCK's own turn is a WRREGS (R141), so it does not write HANDLE. -/
theorem State.Inv.turn_newHandle {s : State} {f : Finish} (hi : s.Inv) (hp : pending s = some (.finish f)) :
    f.newHandle = none := by
  obtain ⟨c, o, replies, i, q, hs, hd, hq, hf⟩ := pending_some hp
  obtain ⟨j, hj, -, ⟨r, ho⟩ | ⟨⟨reg, rfl⟩, -⟩⟩ := (hi.running c o replies hs).command
  · simp [outstanding, hp] at ho
  · obtain rfl : i = .wrregs reg := by rw [hd] at hj; cases hj; rfl
    have h := (procOf_plain hq nofun nofun).after replies
    rw [← hf] at h
    exact h.2

/-- INIT runs only before there is a handle, and only with I2C enabled (R180). -/
theorem State.Inv.init_running {s : State} {c : Word} {o : Latched} {replies : List Answer} (hi : s.Inv)
    (hs : s.seq = .running c o replies) (hd : decode c = .ok .init) : s.handle = 0#32 ∧ s.params.i2cEnabled = true := by
  obtain ⟨i, hj, hcmd, -⟩ := (hi.running c o replies hs).command
  obtain rfl : .init = i := by rw [hd] at hj; cases hj; rfl
  obtain ⟨hbus, -⟩ | ⟨-, hz, -, he⟩ := hcmd
  · simp [isBusCommand, commandClass] at hbus
  · exact ⟨hz, he⟩

/-- What a step does to HANDLE: reset clears it, an answer to a running INIT may write it, all else keeps it. -/
theorem step_handle {s t : State} (hi : s.Inv) (hst : step s = .next t) :
    (s.env.head? = some .reset ∧ t.handle = 0#32) ∨ t.handle = s.handle ∨
      ∃ c o replies a, s.seq = .running c o replies ∧ decode c = .ok .init ∧ s.env.head? = some (.answer a) := by
  cases step_cases hst with
  | reset he => exact .inl ⟨he, rfl⟩
  | answer a r next he hp =>
    obtain hkeep | ⟨c, o, replies, hs, hd⟩ := advance_handle hp
    · exact .inr (.inl hkeep)
    · exact .inr (.inr ⟨c, o, replies, a, hs, hd, he⟩)
  | turn f he hp => exact .inr (.inl (applyFinish_handle s.taken (hi.turn_newHandle hp)))
  | command c i t he hb hf hd ht => exact .inr (.inl (exec_handle (s := { s.taken with cmd := c }) ht))
  | accessFault | illegalWord => exact .inr (.inl (raiseFault_handle ..))
  | ignored | read | faultedRead | opw | opv | dev | cnt | buf => exact .inr (.inl rfl)

/-- Settles O29: the three clauses are read off `step_handle`; a running INIT means HANDLE = 0 and I2C enabled. -/
theorem handleIsCreatedAtMostOnce : Obligations.HandleIsCreatedAtMostOnce := by
  intro s t hi h
  obtain ⟨hr, hz⟩ | hkeep | ⟨c, o, replies, a, hs, hd, ha⟩ := step_handle hi h
  · exact ⟨fun _ => .inl hr, fun _ hn => absurd hr hn, fun _ => hz⟩
  · refine ⟨fun hne => absurd hkeep hne, fun _ _ => hkeep, fun he => ?_⟩
    by_contra hne
    obtain ⟨-, hen⟩ := hi.handle (hkeep ▸ hne)
    simp [he] at hen
  · obtain ⟨hz, hen⟩ := hi.init_running hs hd
    exact ⟨fun _ => .inr ⟨c, o, replies, a, hs, hd, ha⟩, fun hne => absurd hz hne, fun he => by simp [he] at hen⟩

end Sys2Proof.Machine
end

section
/-! The faults a command word can raise as it is written (60_exceptions.md R192 to R195, R197): which words are illegal, and that in a ready state each failed check is the fault entry and nothing else. -/

namespace Sys2Proof

/-! ## Illegal words (R80) -/

theorem fieldOp_toNat (c : Word) : (fieldOp c).toNat = c.toNat % 32 := by
  simp [fieldOp, BitVec.extractLsb'_toNat]

theorem fieldW_iff (c : Word) : fieldW c = true ↔ c.toNat / 32 % 2 = 1 := by
  rw [fieldW, ← BitVec.testBit_toNat, Nat.testBit_eq_decide_div_mod_eq, decide_eq_true_iff]

theorem fieldRsv_ne_zero_iff (c : Word) : fieldRsv c ≠ 0#8 ↔ c.toNat / 2 ^ 24 ≠ 0 := by
  have hc : c.toNat < 2 ^ 32 := c.isLt
  rw [Ne, BitVec.toNat_eq, fieldRsv, BitVec.extractLsb'_toNat, Nat.shiftRight_eq_div_pow, BitVec.toNat_ofNat]
  omega

/-- An opcode with both widths has a row for each. -/
theorem byWidth_ne_illegal (c : Word) (i8 i16 : Instr) (why : IllegalWord) : byWidth c i8 i16 ≠ .illegal why := by
  cases h : fieldW c <;> simp [byWidth, h]

theorem byteFormOnly_illegal_iff (c : Word) (i : Instr) :
    (∃ why, byteFormOnly c i = .illegal why) ↔ fieldW c = true := by
  cases h : fieldW c <;> simp [byteFormOnly, h]

/-- R80, over the fields of the word. -/
theorem decode_illegal_iff (c : Word) :
    (∃ why, decode c = .illegal why) ↔
      16 ≤ (fieldOp c).toNat ∨ (fieldW c = true ∧ (fieldOp c).toNat ∈ [0x05, 0x07, 0x0E, 0x0F]) ∨
        fieldRsv c ≠ 0#8 := by
  unfold decode
  by_cases hr : fieldRsv c = 0#8
  · simp only [hr, ne_eq, not_true_eq_false, if_false, or_false]
    generalize (fieldOp c).toNat = op
    split
    case h_17 =>
      have hop : 16 ≤ op := by
        by_contra hlt
        interval_cases op <;> contradiction
      simp [hop]
    all_goals simp [byWidth_ne_illegal, byteFormOnly_illegal_iff]
  · simp [hr]

end Sys2Proof

namespace Sys2Proof.Machine

/-! ## The fault entry of a command in a ready state (R200) -/

theorem raiseFault_ready {s : State} (code : FaultCode) (info : Word) (hs : s.Ready) :
    raiseFault code info s = s.faulted code info :=
  raiseFault_idle code info hs.fault hs.seq

theorem commandFault_ready {s : State} (code : FaultCode) (hs : s.Ready) :
    commandFault code s = .next (s.faulted code s.cmd) :=
  congrArg Host.Outcome.next (raiseFault_ready code s.cmd hs)

/-- A ready block takes a word written to CMD as a command word (R22). -/
theorem step_acceptsWord {s : State} {c : Word} {rest : List Event} (hs : s.Ready)
    (he : s.env = .hostWrite 32 0x000 c :: rest) : step s = accept c { s with env := rest } := by
  rw [step_cons he]
  exact hostWrite_legal (bits := 32) (off := 0x000) (r := .cmd) c hs.fault rfl hs.busy

/-- Settles O5: `decode_illegal_iff` with the fields read as numbers, then the fault entry of a ready block. -/
theorem illegalWordsRaiseIllegalCmd : Obligations.IllegalWordsRaiseIllegalCmd := by
  refine fun c => ⟨?_, fun s rest why hs hd he => ?_⟩
  · rw [decode_illegal_iff, fieldOp_toNat, fieldW_iff, fieldRsv_ne_zero_iff]
  · have hs' : ({ s with env := rest, cmd := c } : State).Ready := ⟨hs.busy, hs.fault, hs.seq⟩
    rw [step_acceptsWord hs he, accept, hd]
    exact commandFault_ready .illegalCmd hs'

/-- Settles O28: the check of REINIT comes first (R203). -/
theorem secondInitRaisesReinit : Obligations.SecondInitRaisesReinit := by
  intro s hs hi
  rw [exec, execInit, if_pos hi, commandFault_ready .reinit hs]

/-! ## Bit positions (R194) -/

theorem bitCommand_badPos {w : Width} {p : BitVec 4} {s : State} (r : Nat) (hs : s.Ready) (hp : w.bits ≤ p.toNat) :
    bitCommand w p r s = .next (s.faulted .badBitpos s.cmd) := by
  rw [bitCommand, if_neg (by simpa [validPos] using hp), commandFault_ready .badBitpos hs]

theorem startBit_badPos {w : Width} {p : BitVec 4} {s : State} (proc : Params → Latched → Proc) (hs : s.Ready)
    (hp : w.bits ≤ p.toNat) : startBit w p proc s = .next (s.faulted .badBitpos s.cmd) := by
  rw [startBit, if_neg (by simpa [validPos] using hp), commandFault_ready .badBitpos hs]

theorem positionFits_w16 (p : BitVec 4) : positionFits .w16 p = true := decide_eq_true p.isLt

/-- Settles O34: the position check stands before every other, in the pure commands and in the bus commands. -/
theorem badBitPositionFaults : Obligations.BadBitPositionFaults :=
  ⟨fun _ _ _ _ hs hp =>
    ⟨bitCommand_badPos _ hs hp, bitCommand_badPos _ hs hp, startBit_badPos _ hs hp, startBit_badPos _ hs hp⟩,
   fun _ p _ => ⟨positionFits_w16 p, positionFits_w16 p, positionFits_w16 p, positionFits_w16 p⟩⟩

/-! ## Descriptors (R193) -/

theorem validDesc_false {w : Width} {bs len : Nat} (h : w.bits ≤ bs ∨ bs + 1 < len) : ¬validDesc w bs len = true := by
  simp only [validDesc, decide_eq_true_iff]
  omega

theorem fieldCommand_badDesc {w : Width} {bs : BitVec 4} {len : BitVec 5} {s : State} (r : Nat) (hs : s.Ready)
    (hd : w.bits ≤ bs.toNat ∨ bs.toNat + 1 < len.toNat) :
    fieldCommand w bs len r s = .next (s.faulted .badDescriptor s.cmd) := by
  rw [fieldCommand, if_neg (validDesc_false hd), commandFault_ready .badDescriptor hs]

theorem startField_badDesc {w : Width} {bs : BitVec 4} {len : BitVec 5} {s : State} (proc : Params → Latched → Proc)
    (hs : s.Ready) (hd : w.bits ≤ bs.toNat ∨ bs.toNat + 1 < len.toNat) :
    startField w bs len proc s = .next (s.faulted .badDescriptor s.cmd) := by
  rw [startField, if_neg (validDesc_false hd), commandFault_ready .badDescriptor hs]

/-- Settles O35: the two pure and the four bus commands of each width make the one check of `validDesc` first. -/
theorem badDescriptorFaults : Obligations.BadDescriptorFaults := by
  intro s reg bs len stop hs
  constructor <;> intro hd <;>
    exact ⟨fieldCommand_badDesc _ hs hd, fieldCommand_badDesc _ hs hd, startField_badDesc _ hs hd,
      startField_badDesc _ hs hd, startField_badDesc _ hs hd, startField_badDesc _ hs hd⟩

/-! ## No handle (R195) -/

section
variable {s : State} (hs : s.Ready) (hh : s.handle = 0#32)
include hs hh

theorem startBus_noHandle (proc : Params → Latched → Proc) (o : Latched) :
    startBus proc o s = .next (s.faulted .noHandle s.cmd) := by
  rw [startBus, if_pos hh, commandFault_ready .noHandle hs]

theorem startBit_noHandle {w : Width} {p : BitVec 4} (proc : Params → Latched → Proc) (hp : positionFits w p = true) :
    startBit w p proc s = .next (s.faulted .noHandle s.cmd) := by
  rw [startBit, validPos_eq_positionFits, if_pos hp, startBus_noHandle hs hh]

theorem startField_noHandle {w : Width} {bs : BitVec 4} {len : BitVec 5} (proc : Params → Latched → Proc)
    (hd : descriptorFits w bs len = true) : startField w bs len proc s = .next (s.faulted .noHandle s.cmd) := by
  rw [startField, validDesc_eq_descriptorFits, if_pos hd, startBus_noHandle hs hh]

end

/-- Settles O36: by the check a bus command makes before it asks for a handle (R203). -/
theorem busCommandWithoutHandleFaults : Obligations.BusCommandWithoutHandleFaults := by
  intro s i hs hh hb hw hcnt
  cases i
  case rdregs reg => exact (if_neg (hcnt reg rfl).not_gt).trans (startBus_noHandle hs hh _ _)
  case wrregs => exact (if_pos hh).trans (commandFault_ready .noHandle hs)
  case rdreg8 | rdreg16 | wrreg8 | wrreg16 => exact startBus_noHandle hs hh _ _
  case rdregbit8 | rdregbit16 | wrregbit8 | wrregbit16 => exact startBit_noHandle hs hh _ hw
  case rdregbf8 | rdregbf16 | rdbits8 | rdbits16 | wrregbf8 | wrregbf16 | wrbits8 | wrbits16 =>
    exact startField_noHandle hs hh _ hw
  all_goals simp [isBusCommand, commandClass] at hb

end Sys2Proof.Machine
end

section
/-! What a faulted block still does (60_exceptions.md R202). -/

namespace Sys2Proof.Machine

/-- A host read of a faulted block gives the HOST some value and uses up one free value. -/
theorem hostRead_faulted {s : State} (bits off : Nat) (hf : s.status.fault = true) :
    ∃ v, hostRead bits off s = { s with hostData := v, draws := s.draws + 1 } := by
  unfold hostRead
  split
  · exact ⟨_, rfl⟩
  · rw [raiseFault_again _ _ (by exact hf)]
    exact ⟨_, rfl⟩

theorem takeAnswer_idle {s : State} (a : Answer) (hq : s.seq = .idle) : takeAnswer a s = s :=
  takeAnswer_none a (by simp [outstanding, pending_idle hq])

/-- No event but reset reaches a register of a faulted block. -/
theorem handleEvent_faulted {s : State} {e : Event} (hf : s.status.fault = true) (hq : s.seq = .idle)
    (hne : e ≠ .reset) : ∃ v d, handleEvent e s = .next { s with hostData := v, draws := d } := by
  cases e with
  | hostWrite bits off v => exact ⟨s.hostData, s.draws, hostWrite_faulted bits off v hf⟩
  | hostRead bits off =>
    obtain ⟨v, hv⟩ := hostRead_faulted bits off hf
    exact ⟨v, s.draws + 1, congrArg Host.Outcome.next hv⟩
  | answer a => exact ⟨s.hostData, s.draws, congrArg Host.Outcome.next (takeAnswer_idle a hq)⟩
  | lateAnswer a => exact ⟨s.hostData, s.draws, rfl⟩
  | block => exact ⟨s.hostData, s.draws, congrArg Host.Outcome.next (blockTurn_idle hq)⟩
  | reset => exact absurd rfl hne

theorem System.endedWell_faulted {y : System} (hf : y.block.status.fault = true) : y.endedWell = false := by
  simp [System.endedWell, hf]

/-- Settles O31: one lemma per kind of event, each on the state with the event taken. -/
theorem faultPersistsUntilReset : Obligations.FaultPersistsUntilReset := by
  intro s e rest hf hq he
  have htaken := step_cons he
  refine ⟨?_, ?_, ?_, ?_, ?_, ?_⟩
  · rintro bits off v rfl
    exact htaken.trans (hostWrite_faulted bits off v hf)
  · rintro off r rfl hr
    exact step_legalRead he hr
  · rintro bits off rfl
    obtain ⟨v, hv⟩ := hostRead_faulted (s := { s with env := rest }) bits off hf
    exact ⟨v, htaken.trans (congrArg Host.Outcome.next hv)⟩
  · intro hne
    obtain ⟨v, d, hv⟩ := handleEvent_faulted (s := { s with env := rest }) hf hq hne
    exact ⟨_, htaken.trans hv, rfl, rfl⟩
  · rintro rfl
    exact ⟨_, htaken, rfl⟩
  · rintro y rfl
    exact System.endedWell_faulted hf

end Sys2Proof.Machine
end

section
/-! A failing answer of TRANSPORT (60_exceptions.md R190): it ends every command, with the command's failure result. -/

namespace Sys2Proof.Machine

/-! ## The end of a failed command -/

/-- The end of a command that failed with result `res`: HANDLE is not written, and BUF gets no data (R131, R180). -/
structure Finish.Failed (res : Word) (f : Finish) : Prop where
  ok : f.ok = false
  result : f.result = res
  newHandle : f.newHandle = none
  noData : ∀ bytes, f.buf ≠ .store bytes

/-- Every failing answer ends the command at once, in a way that satisfies `P`. -/
def Proc.FailsAtOnce (P : Finish → Prop) : Proc → Prop
  | .request r next => (∀ a, a.fails r → ∃ f, next a = .finish f ∧ P f) ∧ ∀ a, (next a).FailsAtOnce P
  | .finish _ => True

theorem Proc.FailsAtOnce.after {P : Finish → Prop} (l : List Answer) :
    ∀ {p : Proc}, p.FailsAtOnce P → (p.after l).FailsAtOnce P := by
  induction l with
  | nil => intro p h; simpa using h
  | cons a l ih =>
    intro p h
    cases p with
    | request r next => exact ih (h.2 a)
    | finish f => simpa using h

/-! ## The procedures -/

theorem finishBool_failsAtOnce (P : Finish → Prop) (ok : Bool) : (finishBool ok).FailsAtOnce P := by
  cases ok <;> trivial

theorem finishValue_failsAtOnce (P : Finish → Prop) (v : Option Nat) : (finishValue v).FailsAtOnce P := by
  cases v <;> trivial

theorem finishBool_false_failed : ∃ f, finishBool false = .finish f ∧ f.Failed 0#32 :=
  ⟨_, rfl, rfl, rfl, rfl, nofun⟩

theorem finishValue_none_failed : ∃ f, finishValue none = .finish f ∧ f.Failed 0xFFFFFFFF#32 :=
  ⟨_, rfl, rfl, rfl, rfl, nofun⟩

section
variable {P : Finish → Prop} {o : Latched}

theorem busWrite_failsAtOnce {bytes : List Byte} {stop : Bool} {next : Bool → Proc}
    (hfail : ∃ f, next false = .finish f ∧ P f) (hnext : ∀ ok, (next ok).FailsAtOnce P) :
    (busWrite o bytes stop next).FailsAtOnce P := by
  refine ⟨fun a ha => ?_, fun a => hnext a.ok⟩
  have ha : a.ok = false := ha
  simpa only [ha] using hfail

theorem busRead_failsAtOnce {n : Nat} {stop : Bool} {next : Option (List Byte) → Proc}
    (hfail : ∃ f, next none = .finish f ∧ P f) (hnext : ∀ d, (next d).FailsAtOnce P) :
    (busRead o n stop next).FailsAtOnce P := by
  refine ⟨fun a ha => ?_, fun a => hnext _⟩
  have ha : a.ok = false := ha
  simpa [ha] using hfail

theorem rawRead_failsAtOnce {w : Width} {stop : Bool} {next : Option Nat → Proc}
    (hfail : ∃ f, next none = .finish f ∧ P f) (hnext : ∀ v, (next v).FailsAtOnce P) :
    (rawRead w o stop next).FailsAtOnce P :=
  busRead_failsAtOnce hfail fun _ => hnext _

theorem readReg_failsAtOnce {w : Width} {reg : Byte} {next : Option Nat → Proc}
    (hfail : ∃ f, next none = .finish f ∧ P f) (hnext : ∀ v, (next v).FailsAtOnce P) :
    (readReg w o reg next).FailsAtOnce P :=
  busWrite_failsAtOnce hfail fun ok => match ok with
    | true => rawRead_failsAtOnce hfail hnext
    | false => hnext none

end

/-- A write request and `complete(ok, ok)` after it. -/
theorem writeBool_failsAtOnce (o : Latched) (bytes : List Byte) (stop : Bool) :
    (busWrite o bytes stop finishBool).FailsAtOnce (Finish.Failed 0#32) :=
  busWrite_failsAtOnce finishBool_false_failed (finishBool_failsAtOnce _)

theorem readValue_failsAtOnce (w : Width) (o : Latched) (reg : Byte) (g : Option Nat → Option Nat) (hg : g none = none) :
    (readReg w o reg fun v => finishValue (g v)).FailsAtOnce (Finish.Failed 0xFFFFFFFF#32) :=
  readReg_failsAtOnce (by simpa only [hg] using finishValue_none_failed) fun _ => finishValue_failsAtOnce _ _

theorem modifyReg_failsAtOnce (w : Width) (o : Latched) (reg : Byte) (f : Nat → Nat) :
    (modifyReg w o reg f).FailsAtOnce (Finish.Failed 0#32) :=
  readReg_failsAtOnce finishBool_false_failed fun v => match v with
    | none => finishBool_failsAtOnce _ false
    | some _ => writeBool_failsAtOnce ..

theorem modifyRaw_failsAtOnce (w : Width) (o : Latched) (stop : Bool) (f : Nat → Nat) :
    (modifyRaw w o stop f).FailsAtOnce (Finish.Failed 0#32) :=
  rawRead_failsAtOnce finishBool_false_failed fun v => match v with
    | none => finishBool_failsAtOnce _ false
    | some _ => writeBool_failsAtOnce ..

theorem rdregsProc_failsAtOnce (reg : Byte) (ps : Params) (o : Latched) :
    (rdregsProc reg ps o).FailsAtOnce (Finish.Failed 0#32) := by
  refine busWrite_failsAtOnce finishBool_false_failed fun ok => ?_
  cases ok with
  | false => exact finishBool_failsAtOnce _ false
  | true =>
    rw [if_pos rfl]
    refine busRead_failsAtOnce ⟨_, rfl, rfl, rfl, rfl, nofun⟩ fun d => ?_
    cases d <;> trivial

theorem initProc_failsAtOnce (ps : Params) (o : Latched) : (initProc ps o).FailsAtOnce (Finish.Failed 0#32) := by
  refine ⟨fun a ha => ?_, fun a => ?_⟩
  · have ha : a.handle = 0#32 := ha
    simpa only [ha, if_true] using finishBool_false_failed
  · dsimp only
    split
    · exact finishBool_failsAtOnce _ false
    · trivial

/-- Every command fails with its failure result (R131, R180). -/
theorem procOf_failsAtOnce {i : Instr} {ps : Params} {o : Latched} {q : Proc} (h : procOf i ps o = some q) :
    q.FailsAtOnce (Finish.Failed (failureResult i)) := by
  cases i <;> simp only [procOf, Option.some.injEq, reduceCtorEq] at h <;> subst h
  case rdreg8 | rdreg16 => exact readValue_failsAtOnce _ _ _ id rfl
  case rdregbit8 | rdregbit16 | rdregbf8 | rdregbf16 => exact readValue_failsAtOnce _ _ _ (Option.map _) rfl
  case rdbits8 | rdbits16 => exact rawRead_failsAtOnce finishValue_none_failed fun _ => finishValue_failsAtOnce _ _
  case wrreg8 | wrreg16 => exact writeBool_failsAtOnce ..
  case wrregbit8 | wrregbit16 | wrregbf8 | wrregbf16 => exact modifyReg_failsAtOnce ..
  case wrbits8 | wrbits16 => exact modifyRaw_failsAtOnce ..
  case rdregs => exact rdregsProc_failsAtOnce ..
  case init => exact initProc_failsAtOnce ..
  case wrregs reg =>
    unfold wrregsProc
    split
    · exact finishBool_failsAtOnce _ false
    · exact writeBool_failsAtOnce ..

/-! ## The answer -/

theorem delivered_fails {r : Request} {a : Answer} (n : Nat) (h : a.fails r) : (delivered r n a).fails r := by
  cases r <;> exact h

/-- Only a successful read takes free values for its data. -/
theorem deliveredDraws_fails {r : Request} {a : Answer} (h : a.fails r) : deliveredDraws r a = 0 := by
  cases r with
  | busRead conn dev n stop =>
    have h : a.ok = false := h
    simp [deliveredDraws, h]
  | busWrite | create => rfl

theorem touchedBytes_rdregs {c : Word} {o : Latched} {replies : List Answer} {reg : Byte}
    (hd : decode c = .ok (.rdregs reg)) (hl : replies.length = 1) :
    touchedBytes (.running c o replies) = o.cnt.toNat := by
  simp [touchedBytes, hd, hl]

/-- A failing answer ends the running command; of BUF it can touch only what a fault could touch (R138, R201). -/
theorem takeAnswer_fails {s : State} {c : Word} {o : Latched} {replies : List Answer} {i : Instr} {r : Request}
    {a : Answer} (hs : s.seq = .running c o replies) (hd : decode c = .ok i) (ho : outstanding s = some r)
    (ha : a.fails r) :
    ∃ u, takeAnswer a s = { s with buf := u.buf, draws := u.draws }.completed false (failureResult i) ∧
      (u = s ∨ u = drawBuf (touchedBytes s.seq) s) := by
  obtain ⟨next, hp⟩ := outstanding_some ho
  obtain ⟨q, hq, hr⟩ := Option.map_eq_some_iff.mp ((pending_running hs hd).symm.trans hp)
  obtain ⟨hends, -⟩ : (Proc.request r next).FailsAtOnce (Finish.Failed (failureResult i)) :=
    hr ▸ (procOf_failsAtOnce hq).after replies
  obtain ⟨f, hf, hfail⟩ := hends _ (delivered_fails s.draws ha)
  obtain ⟨hbuf, -⟩ := answer_finish hq hr hf
  rw [takeAnswer_request a hp, hf, advance_finish, applyFinish_eq, deliveredDraws_fails ha, hfail.ok, hfail.result,
    hfail.newHandle]
  obtain hkeep | ⟨⟨reg, rfl⟩, hl, hdrawn | ⟨bytes, hstore, -⟩⟩ := hbuf
  · rw [hkeep]
    exact ⟨s, rfl, .inl rfl⟩
  · rw [hdrawn, ← touchedBytes_rdregs hd hl, ← hs]
    exact ⟨_, rfl, .inr rfl⟩
  · exact absurd hstore (hfail.noData bytes)

/-- Settles O38: `takeAnswer_fails` on the state with the event taken. -/
theorem transportFailureEndsTheCommand : Obligations.TransportFailureEndsTheCommand := by
  intro s c o replies i r a rest hs hd ho ha he
  have ho' : outstanding { s with env := rest } = some r := ho
  obtain ⟨u, ht, hu⟩ := takeAnswer_fails (s := { s with env := rest }) hs hd ho' ha
  refine ⟨_, (step_cons he).trans (congrArg Host.Outcome.next ht), rfl, ?_, ?_, fun hf => ⟨rfl, hf, rfl⟩⟩
  · intro hz
    obtain rfl | rfl := hu
    · exact ⟨rfl, rfl⟩
    · simp [State.completed, hz]
  · intro k hk
    obtain rfl | rfl := hu
    · rfl
    · exact drawBuf_read { s with env := rest } hk

end Sys2Proof.Machine
end

section
/-! Host reads while a command runs (70_reset_and_hazards.md R224): which register a legal offset names, and what STATUS reads as. -/

namespace Sys2Proof.Machine

/-- Every legal offset names a register (R51). -/
theorem regAt_isSome_of_legal {maxN off : Nat}
    (h : off % 4 = 0 ∧ (off ≤ 0x24 ∨ (0x100 ≤ off ∧ off < 0x100 + 4 * maxN))) : ∃ r, regAt maxN off = some r :=
  Option.ne_none_iff_exists'.mp fun hnone => regAt_none.mp hnone h

/-- The converse of `regAt_some`: every register of the block is found at its own offset (R21). -/
theorem regAt_offset {maxN : Nat} {r : HostReg} (h : ∀ i, r = .buf i → i < maxN) : regAt maxN r.offset = some r := by
  cases r with
  | buf i => exact regAt_buf (h i rfl)
  | _ => rfl

/-- No two registers share an offset. -/
theorem eq_of_regAt_of_offset {maxN off : Nat} {r q : HostReg} (hr : regAt maxN off = some r) (ho : off = q.offset)
    (hq : ∀ i, q = .buf i → i < maxN) : r = q := by
  subst ho
  exact Option.some.inj (hr.symm.trans (regAt_offset hq))

/-- While BUSY = 1, STATUS reads as a free value in OK and as it is in every other field (R224, V4). -/
theorem readHostReg_status_busy {s : State} (hb : s.status.busy = true) :
    readHostReg .status s = statusWord { s.status with ok := Config.freeBit s.draws } := by
  rw [readHostReg, if_pos hb]

/-- Settles O43: the legal offset names one register, and of the registers listed only STATUS.OK reads as a free value. -/
theorem readsWhileBusy : Obligations.ReadsWhileBusy := by
  intro s off rest hb he hlegal
  obtain ⟨r, hr⟩ := regAt_isSome_of_legal hlegal
  have hread (q : HostReg) (hq : ∀ i, q = .buf i → i < s.params.maxN) (ho : off = q.offset) :
      readHostReg r s = readHostReg q s := by rw [eq_of_regAt_of_offset hr ho hq]
  refine ⟨readHostReg r s, step_legalRead he hr, hread .cmd nofun, fun ho => ?_, hread .opw nofun, hread .opv nofun,
    hread .dev nofun, hread .cnt nofun, hread .handle nofun, hread .finfo nofun, hread .params nofun⟩
  rw [hread .status nofun ho, readHostReg_status_busy hb]
  obtain ⟨hbusy, -, hfault, hinitd, hlow, hfcode, hhigh⟩ :=
    statusWord_fields { s.status with ok := Config.freeBit s.draws }
  exact ⟨hbusy.trans hb, hfault, hinitd, hfcode, hlow, hhigh⟩

end Sys2Proof.Machine
end

section
/-! The encoding of a command word (30_encoding.md R71, R78 to R85): a word is its seven fields, and a word decodes to a command exactly when it agrees with the command's encoded word on the bits the command uses. -/

namespace Sys2Proof

/-! ## A word and its fields (R71) -/

section
variable (c m : Word)

@[simp] theorem fieldOp_and : fieldOp (c &&& m) = fieldOp c &&& fieldOp m := BitVec.extractLsb'_and
@[simp] theorem fieldW_and : fieldW (c &&& m) = (fieldW c && fieldW m) := BitVec.getLsbD_and
@[simp] theorem fieldBs_and : fieldBs (c &&& m) = fieldBs c &&& fieldBs m := BitVec.extractLsb'_and
@[simp] theorem fieldLen_and : fieldLen (c &&& m) = fieldLen c &&& fieldLen m := BitVec.extractLsb'_and
@[simp] theorem fieldF_and : fieldF (c &&& m) = (fieldF c && fieldF m) := BitVec.getLsbD_and
@[simp] theorem fieldReg_and : fieldReg (c &&& m) = fieldReg c &&& fieldReg m := BitVec.extractLsb'_and
@[simp] theorem fieldRsv_and : fieldRsv (c &&& m) = fieldRsv c &&& fieldRsv m := BitVec.extractLsb'_and

end

/-- Bit `k` of a field of `n` bits that starts at bit `lo`. -/
theorem getLsbD_of_field {c c' : Word} {lo n k : Nat} (h : c.extractLsb' lo n = c'.extractLsb' lo n) (hlo : lo ≤ k)
    (hk : k < lo + n) : c.getLsbD k = c'.getLsbD k := by
  have := congrArg (fun x => x.getLsbD (k - lo)) h
  simpa [show k - lo < n by omega, show lo + (k - lo) = k by omega] using this

/-- The seven fields of R71 cover the word. -/
theorem eq_of_fields {c c' : Word} (hop : fieldOp c = fieldOp c') (hw : fieldW c = fieldW c')
    (hbs : fieldBs c = fieldBs c') (hlen : fieldLen c = fieldLen c') (hf : fieldF c = fieldF c')
    (hreg : fieldReg c = fieldReg c') (hrsv : fieldRsv c = fieldRsv c') : c = c' := by
  apply BitVec.eq_of_getLsbD_eq
  intro k hk
  by_cases h5 : k = 5
  · subst h5; exact hw
  by_cases h15 : k = 15
  · subst h15; exact hf
  rcases Nat.lt_or_ge k 5 with h | h
  · exact getLsbD_of_field hop (by omega) (by omega)
  rcases Nat.lt_or_ge k 10 with h | h
  · exact getLsbD_of_field hbs (by omega) (by omega)
  rcases Nat.lt_or_ge k 15 with h | h
  · exact getLsbD_of_field hlen (by omega) (by omega)
  rcases Nat.lt_or_ge k 24 with h | h
  · exact getLsbD_of_field hreg (by omega) (by omega)
  · exact getLsbD_of_field hrsv (by omega) (by omega)

/-! ## The decoder -/

theorem byWidth_ok {c : Word} {i8 i16 i : Instr} (h : byWidth c i8 i16 = .ok i) :
    (fieldW c = false ∧ i = i8) ∨ (fieldW c = true ∧ i = i16) := by
  unfold byWidth at h
  cases hw : fieldW c <;> simp_all

theorem byteFormOnly_ok {c : Word} {i j : Instr} (h : byteFormOnly c j = .ok i) : fieldW c = false ∧ i = j := by
  unfold byteFormOnly at h
  cases hw : fieldW c <;> simp_all

/-- Settles O1: every field of an assembled word is the operand put there, so OP and W choose the command's own row. -/
theorem decodeEncode : Obligations.DecodeEncode := by
  intro i
  cases i
  case rdregs | wrregs | init | getglobal => simp [encode, decode, byteFormOnly]
  all_goals simp [encode, decode, byWidth]

/-! ## The bits a command uses (R85) -/

section
variable (n : Nat)

/-- The fields of a word given as a number, to compute those of a mask with. -/
theorem extractLsb'_ofNat_word (lo len : Nat) (h : lo + len ≤ 32) :
    (BitVec.ofNat 32 n).extractLsb' lo len = BitVec.ofNat len (n / 2 ^ lo) := by
  apply BitVec.eq_of_getLsbD_eq
  intro k hk
  rw [BitVec.getLsbD_extractLsb', BitVec.getLsbD_ofNat, BitVec.getLsbD_ofNat, Nat.testBit_div_two_pow, Nat.add_comm]
  simp [show k + lo < 32 by omega]

@[simp] theorem fieldOp_ofNat : fieldOp (BitVec.ofNat 32 n) = BitVec.ofNat 5 (n / 2 ^ 0) :=
  extractLsb'_ofNat_word n 0 5 (by decide)
@[simp] theorem fieldW_ofNat : fieldW (BitVec.ofNat 32 n) = decide (n / 2 ^ 5 % 2 = 1) := by
  rw [← Nat.testBit_eq_decide_div_mod_eq]; exact (BitVec.getLsbD_ofNat ..).trans (Bool.true_and _)
@[simp] theorem fieldBs_ofNat : fieldBs (BitVec.ofNat 32 n) = BitVec.ofNat 4 (n / 2 ^ 6) :=
  extractLsb'_ofNat_word n 6 4 (by decide)
@[simp] theorem fieldLen_ofNat : fieldLen (BitVec.ofNat 32 n) = BitVec.ofNat 5 (n / 2 ^ 10) :=
  extractLsb'_ofNat_word n 10 5 (by decide)
@[simp] theorem fieldF_ofNat : fieldF (BitVec.ofNat 32 n) = decide (n / 2 ^ 15 % 2 = 1) := by
  rw [← Nat.testBit_eq_decide_div_mod_eq]; exact (BitVec.getLsbD_ofNat ..).trans (Bool.true_and _)
@[simp] theorem fieldReg_ofNat : fieldReg (BitVec.ofNat 32 n) = BitVec.ofNat 8 (n / 2 ^ 16) :=
  extractLsb'_ofNat_word n 16 8 (by decide)
@[simp] theorem fieldRsv_ofNat : fieldRsv (BitVec.ofNat 32 n) = BitVec.ofNat 8 (n / 2 ^ 24) :=
  extractLsb'_ofNat_word n 24 8 (by decide)

end

/-- A field that a mask keeps whole. -/
@[simp] theorem and_ones4 (x : BitVec 4) : x &&& 15#4 = x := BitVec.and_allOnes
@[simp] theorem and_ones5 (x : BitVec 5) : x &&& 31#5 = x := BitVec.and_allOnes
@[simp] theorem and_ones8 (x : BitVec 8) : x &&& 255#8 = x := BitVec.and_allOnes

theorem w8_beq_w16 : (Width.w8 == Width.w16) = false := rfl

/-- A word decodes to the command whose encoded word it agrees with on the bits the command uses (R79, R81). -/
theorem decode_of_usedBits {c : Word} {i : Instr} (h : c &&& Machine.usedBits i = encode i) : decode c = .ok i := by
  have hop := congrArg fieldOp h
  have hw := congrArg fieldW h
  have hbs := congrArg fieldBs h
  have hlen := congrArg fieldLen h
  have hf := congrArg fieldF h
  have hreg := congrArg fieldReg h
  have hrsv := congrArg fieldRsv h
  cases i <;> simp [encode, Machine.usedBits, w8_beq_w16] at hop hw hbs hlen hf hreg hrsv <;>
    simp [decode, byWidth, byteFormOnly, *]

theorem fieldOp_of_toNat {c : Word} {n : Nat} (h : (fieldOp c).toNat = n) : fieldOp c = BitVec.ofNat 5 n := by
  rw [← h, BitVec.ofNat_toNat, BitVec.setWidth_eq]

/-- Settles O2: the row that OP and W choose takes its operands from the fields it uses; the others are masked out. -/
theorem encodeDecodeOnUsedBits : Obligations.EncodeDecodeOnUsedBits := by
  intro c i h
  unfold decode at h
  split at h
  · cases h
  rename_i hrsv
  have hrsv := not_not.mp hrsv
  split at h
  case h_17 => cases h
  all_goals have hop := fieldOp_of_toNat ‹_›
  case h_6 | h_8 | h_15 | h_16 =>
    obtain ⟨hw, rfl⟩ := byteFormOnly_ok h
    apply eq_of_fields <;> simp [encode, Machine.usedBits, w8_beq_w16, hrsv, hop, hw]
  all_goals
    obtain ⟨hw, rfl⟩ | ⟨hw, rfl⟩ := byWidth_ok h <;> apply eq_of_fields <;>
      simp [encode, Machine.usedBits, w8_beq_w16, hrsv, hop, hw]

/-- Settles O3: both words agree with the command's encoded word on the bits it uses. -/
theorem ignoredFieldsDoNotDecode : Obligations.IgnoredFieldsDoNotDecode := fun c _ i h he =>
  decode_of_usedBits (he.symm.trans (encodeDecodeOnUsedBits c i h).symm)

/-- Settles O4: six words, each decoded. -/
theorem writtenOutWordsDecode : Obligations.WrittenOutWordsDecode := by
  unfold Obligations.WrittenOutWordsDecode
  decide

end Sys2Proof
end

section
/-! Every step keeps the invariant (10_state.md R33, 60_exceptions.md R200 to R202, 42_global_handle.md R182): one lemma per shared operation, then the cases of a step. -/

namespace Sys2Proof.Machine

/-! ## States with nothing running -/

theorem State.Inv.seq_of_not_busy {s : State} (hi : s.Inv) (hb : s.status.busy = false) : s.seq = .idle := by
  by_contra hne
  simp [hi.busy.mpr hne] at hb

theorem State.Inv.running_busy {s : State} {c : Word} {o : Latched} {replies : List Answer} (hi : s.Inv)
    (hs : s.seq = .running c o replies) : s.status.busy = true := hi.busy.mpr (by simp [hs])

theorem State.Inv.running_fault {s : State} {c : Word} {o : Latched} {replies : List Answer} (hi : s.Inv)
    (hs : s.seq = .running c o replies) : s.status.fault = false := by
  by_contra hne
  simp [hi.faultIdle (by simpa using hne)] at hs

/-- The invariant of a state in which no command runs. -/
theorem State.Inv.of_idle {t : State} (hq : t.seq = .idle) (hb : t.status.busy = false) (hp : t.params.wf)
    (hf : t.buf.wf) (hr : ∀ c ∈ t.buf, c.1 < t.params.maxN) (hc : t.status.fault = true ↔ t.status.fcode ≠ .none)
    (hn : t.status.fault = false → t.finfo = 0#32)
    (hh : t.handle ≠ 0#32 → t.status.initd = true ∧ t.params.i2cEnabled = true) : t.Inv where
  params := hp
  bufForm := hf
  bufRange := hr
  busy := by simp [hq, hb]
  faultIdle := fun _ => hq
  code := hc
  info := hn
  handle := hh
  running := fun c o replies h => by simp [hq] at h

/-- The model's own inputs and outputs are not part of the invariant. -/
theorem State.Inv.own_fields {s : State} (hi : s.Inv) (env : List Event) (bus : List Request) (v : Word) (d : Nat) :
    ({ s with env := env, bus := bus, hostData := v, draws := d } : State).Inv where
  params := hi.params
  bufForm := hi.bufForm
  bufRange := hi.bufRange
  busy := hi.busy
  faultIdle := hi.faultIdle
  code := hi.code
  info := hi.info
  handle := hi.handle
  running := fun c o replies h =>
    let ⟨word, latched, command, count⟩ := hi.running c o replies h
    ⟨word, latched, command, count⟩

theorem State.Inv.taken {s : State} (hi : s.Inv) : s.taken.Inv := hi.own_fields s.env.tail s.bus s.hostData s.draws

/-- With nothing running, the command word and the operand registers may hold any values. -/
theorem State.Inv.operands {s : State} (hi : s.Inv) (hq : s.seq = .idle) (c : Word) (opw opv dev : Half) (cnt : Byte) :
    ({ s with cmd := c, opw := opw, opv := opv, dev := dev, cnt := cnt } : State).Inv :=
  .of_idle hq (by simpa [hq] using hi.busy) hi.params hi.bufForm hi.bufRange hi.code hi.info hi.handle

/-! ## BUF -/

/-- What may be stored in BUF from its first byte on: no more than MAX_N bytes. -/
theorem State.Inv.buf_store {s : State} (hi : s.Inv) {bytes : List Byte} (hl : bytes.length ≤ s.params.maxN) :
    (s.buf.store 0 bytes).wf ∧ ∀ c ∈ s.buf.store 0 bytes, c.1 < s.params.maxN := by
  refine ⟨Memory.store_wf bytes 0 hi.bufForm, fun c hc => ?_⟩
  obtain h | h := Memory.mem_store bytes hc
  · omega
  · exact hi.bufRange c h

/-- Only an RDREGS whose data read is outstanding may have touched BUF, and at most CNT bytes of it (R201). -/
theorem touchedBytes_cases (q : Seq) :
    touchedBytes q = 0 ∨ ∃ c o replies reg, q = .running c o replies ∧ decode c = .ok (.rdregs reg) ∧
      touchedBytes q = o.cnt.toNat := by
  cases q with
  | idle => exact .inl rfl
  | running c o replies =>
    by_cases h : ∃ reg, decode c = .ok (.rdregs reg) ∧ replies.length = 1
    · obtain ⟨reg, hd, hl⟩ := h
      exact .inr ⟨c, o, replies, reg, rfl, hd, touchedBytes_rdregs hd hl⟩
    · left
      simp only [touchedBytes]
      split
      · exact if_neg fun hl => h ⟨_, ‹_›, hl⟩
      · rfl

/-- A fault touches no byte beyond MAX_N (R198, R201). -/
theorem State.Inv.touchedBytes_le {s : State} (hi : s.Inv) : touchedBytes s.seq ≤ s.params.maxN := by
  obtain h | ⟨c, o, replies, reg, hq, hd, h⟩ := touchedBytes_cases s.seq
  · omega
  · exact h ▸ (hi.running c o replies hq).count reg hd

/-! ## The shared operations -/

theorem raiseFault_inv {s : State} {code : FaultCode} (info : Word) (hi : s.Inv) (hc : code ≠ .none) :
    (raiseFault code info s).Inv := by
  cases hf : s.status.fault
  · by_cases hq : s.seq = .idle
    · rw [raiseFault_idle code info hf hq]
      exact .of_idle hq (by simpa [hq] using hi.busy) hi.params hi.bufForm hi.bufRange (by simp [hc]) (by simp)
        hi.handle
    · rw [raiseFault_running code info hf hq]
      obtain ⟨hform, hrange⟩ := hi.buf_store (bytes := freeBytes (touchedBytes s.seq) s.draws)
        (by simpa using hi.touchedBytes_le)
      exact .of_idle rfl rfl hi.params hform hrange (by simp [hc]) (by simp) hi.handle
  · rwa [raiseFault_again code info hf]

/-- The end of a command: what is asked of its effects on BUF and HANDLE. -/
theorem applyFinish_inv {s t : State} {f : Finish} (hi : s.Inv)
    (ht : t = { s with seq := t.seq, env := t.env, draws := t.draws })
    (hbuf : f.buf = .keep ∨ (∃ n, f.buf = .drawn n ∧ n ≤ s.params.maxN) ∨
      ∃ bytes, f.buf = .store bytes ∧ bytes.length ≤ s.params.maxN)
    (hnew : f.newHandle ≠ none → s.status.initd = true ∧ s.params.i2cEnabled = true) : (applyFinish f t).Inv := by
  have hhandle : f.newHandle.getD s.handle ≠ 0#32 → s.status.initd = true ∧ s.params.i2cEnabled = true := by
    cases hn : f.newHandle with
    | none => exact hi.handle
    | some h => exact fun _ => hnew (by simp [hn])
  have hmem : (applyBuf f.buf t).buf.wf ∧ ∀ c ∈ (applyBuf f.buf t).buf, c.1 < s.params.maxN := by
    obtain h | ⟨n, h, hn⟩ | ⟨bytes, h, hn⟩ := hbuf <;> rw [h, ht]
    · exact ⟨hi.bufForm, hi.bufRange⟩
    · exact hi.buf_store (by simpa using hn)
    · exact hi.buf_store hn
  rw [applyFinish_eq]
  rw [ht] at hmem ⊢
  exact .of_idle rfl rfl hi.params hmem.1 hmem.2 hi.code hi.info hhandle

/-- A command starts with SEQ running and BUSY = 1; it may also send its first request (R130 step 1). -/
theorem start_eq (q : Proc) (o : Latched) (s : State) :
    ∃ bus, start q o s =
      { s with status := { s.status with busy := true }, seq := .running s.cmd o [], bus := bus } := by
  cases q <;> exact ⟨_, rfl⟩

/-- A command that has just started has its whole sequence before it. -/
theorem pending_start {s : State} {i : Instr} {o : Latched} {q : Proc} (hd : decode s.cmd = .ok i)
    (hp : procOf i s.params o = some q) : pending (start q o s) = some q := by
  obtain ⟨bus, hs⟩ := start_eq q o s
  rw [hs, pending_running (i := i) rfl hd, hp]
  simp

/-- What is asked of a command as it starts (R33, R195): `RunningInv` with no answer received yet. -/
theorem start_inv {s : State} {i : Instr} {o : Latched} {q : Proc} (hi : s.Inv) (hf : s.status.fault = false)
    (hd : decode s.cmd = .ok i) (hp : procOf i s.params o = some q)
    (hl : o.opw = s.opw ∧ o.opv = s.opv ∧ o.dev = s.dev ∧ o.cnt = s.cnt ∧ o.conn = s.handle)
    (hcmd : (isBusCommand i ∧ s.handle ≠ 0#32) ∨
      (i = .init ∧ s.handle = 0#32 ∧ s.status.initd = true ∧ s.params.i2cEnabled = true))
    (hcnt : ∀ reg, i = .rdregs reg → o.cnt.toNat ≤ s.params.maxN)
    (hreq : (∃ r next, q = .request r next) ∨ (∃ reg, i = .wrregs reg) ∧ s.params.maxN < s.cnt.toNat) :
    (start q o s).Inv := by
  obtain ⟨bus, hs⟩ := start_eq q o s
  have hpend := pending_start hd hp
  rw [hs] at hpend ⊢
  refine ⟨hi.params, hi.bufForm, hi.bufRange, ⟨fun _ => nofun, fun _ => rfl⟩, fun h => ?_, hi.code, hi.info,
    hi.handle, ?_⟩
  · exact Bool.noConfusion (hf.symm.trans h)
  · rintro c o' replies ⟨⟩
    refine ⟨rfl, hl, ⟨i, hd, hcmd, hreq.imp ?_ fun ⟨hw, hn⟩ => ⟨hw, hn, rfl⟩⟩, fun reg h => hcnt reg ?_⟩
    · rintro ⟨r, next, rfl⟩
      exact ⟨r, outstanding_of_pending hpend⟩
    · exact Decoded.ok.inj (hd.symm.trans h)

/-! ## The cases of a step -/

/-- With nothing running, INITD may be set (R180). -/
theorem State.Inv.setInitd {s : State} (hi : s.Inv) (hq : s.seq = .idle) :
    (s.setStatus { s.status with initd := true }).Inv :=
  .of_idle hq (by simpa [hq] using hi.busy) hi.params hi.bufForm hi.bufRange hi.code hi.info
    fun h => ⟨rfl, (hi.handle h).2⟩

/-- Accepting a command. -/
theorem exec_inv {i : Instr} {s t : State} (hi : s.Inv) (hb : s.status.busy = false) (hf : s.status.fault = false)
    (hd : decode s.cmd = .ok i) (h : exec i s = .next t) : t.Inv := by
  have hq := hi.seq_of_not_busy hb
  obtain ⟨code, hc, rfl⟩ | ⟨-, -, r, rfl⟩ | ⟨rfl, hn, -, rfl⟩ | ⟨rfl, hn, he, rfl⟩ |
    ⟨hbus, hh, hcnt, payload, d, q, hp, rfl⟩ := exec_cases h
  · exact raiseFault_inv s.cmd hi hc
  · exact .of_idle hq hb hi.params hi.bufForm hi.bufRange hi.code hi.info hi.handle
  · exact .of_idle rfl rfl hi.params hi.bufForm hi.bufRange hi.code hi.info fun h => ⟨rfl, (hi.handle h).2⟩
  · have hz : s.handle = 0#32 := by
      by_contra hne
      obtain ⟨hinitd, -⟩ := hi.handle hne
      simp [hn] at hinitd
    exact start_inv (hi.setInitd hq) hf hd rfl ⟨rfl, rfl, rfl, rfl, rfl⟩ (.inr ⟨rfl, hz, rfl, he⟩) nofun
      (.inl ⟨_, _, rfl⟩)
  · refine start_inv (hi.own_fields s.env s.bus s.hostData d) hf hd hp ⟨rfl, rfl, rfl, rfl, rfl⟩ (.inl ⟨hbus, hh⟩)
      hcnt ?_
    obtain ⟨r, next, hr⟩ | ⟨hw, hn, -⟩ := bus_start hbus s.params { latch s with payload := payload }
    · exact .inl ⟨r, next, Option.some.inj (hp.symm.trans hr)⟩
    · exact .inr ⟨hw, hn⟩

/-- A command that sends its next request as it takes an answer then waits for the answer to that request. -/
theorem pending_answered {s : State} {r r' : Request} {next next' : Answer → Proc} {a : Answer}
    (hp : pending s = some (.request r next)) (hn : next (delivered r s.draws a) = .request r' next') :
    pending (advance (.request r' next') { s.taken with
      seq := s.seq.received (delivered r s.draws a)
      draws := s.draws + deliveredDraws r a }) = some (.request r' next') := by
  refine (pending_received hp ?_ ?_).trans (congrArg some hn) <;> rfl

/-- TRANSPORT's answer: the command sends its next request, or it ends. -/
theorem answer_inv {s : State} {r : Request} {next : Answer → Proc} (a : Answer) (hi : s.Inv)
    (hp : pending s = some (.request r next)) :
    (advance (next (delivered r s.draws a))
      { s.taken with seq := s.seq.received (delivered r s.draws a), draws := s.draws + deliveredDraws r a }).Inv := by
  obtain ⟨c, o, replies, i, q, hs, hd, hq, hr⟩ := pending_some hp
  have hrun := hi.running c o replies hs
  obtain ⟨j, hj, hcmd, -⟩ := hrun.command
  obtain rfl : i = j := Decoded.ok.inj (hd.symm.trans hj)
  cases hn : next (delivered r s.draws a) with
  | request r' next' =>
    have hp' := pending_answered hp hn
    rw [advance_request, hs] at hp' ⊢
    refine ⟨hi.params, hi.bufForm, hi.bufRange, ⟨fun _ => nofun, fun _ => hi.running_busy hs⟩, fun h => ?_, hi.code,
      hi.info, hi.handle, ?_⟩
    · exact Bool.noConfusion ((hi.running_fault hs).symm.trans h)
    · rintro c' o' replies' ⟨⟩
      exact ⟨hrun.word, hrun.latched, ⟨i, hd, hcmd, .inl ⟨r', outstanding_of_pending hp'⟩⟩, hrun.count⟩
  | finish f =>
    obtain ⟨hbuf, hnew⟩ := answer_finish hq hr.symm hn
    refine applyFinish_inv hi rfl ?_ fun hne => ?_
    · obtain hkeep | ⟨⟨reg, rfl⟩, -, hdrawn | ⟨bytes, hstore, hl⟩⟩ := hbuf
      · exact .inl hkeep
      · exact .inr (.inl ⟨_, hdrawn, hrun.count reg hd⟩)
      · exact .inr (.inr ⟨bytes, hstore, hl ▸ hrun.count reg hd⟩)
    · obtain hnone | ⟨rfl, -⟩ := hnew
      · exact absurd hnone hne
      · obtain ⟨hbus, -⟩ | ⟨-, -, hin, hen⟩ := hcmd
        · simp [isBusCommand, commandClass] at hbus
        · exact ⟨hin, hen⟩

/-- A command that ends at BLOCK's own turn is a WRREGS beyond MAX_N, which leaves BUF and HANDLE as they are (R141). -/
theorem State.Inv.turn_plain {s : State} {f : Finish} (hi : s.Inv) (hp : pending s = some (.finish f)) : f.Plain := by
  obtain ⟨c, o, replies, i, q, hs, hd, hq, hf⟩ := pending_some hp
  obtain ⟨j, hj, -, ⟨r, ho⟩ | ⟨⟨reg, rfl⟩, -⟩⟩ := (hi.running c o replies hs).command
  · simp [outstanding, hp] at ho
  · obtain rfl := Decoded.ok.inj (hd.symm.trans hj)
    have h := (procOf_plain hq nofun nofun).after replies
    rwa [← hf] at h

theorem resetWith_inv {p : Params} (hp : p.wf) : (State.resetWith p).Inv :=
  .of_idle rfl rfl hp .nil nofun (by simp [State.resetWith, Status.reset]) (fun _ => rfl) fun h => absurd rfl h

/-- Settles O46: by the cases of a step, one lemma for each shared operation. -/
theorem invariantIsKept : Obligations.InvariantIsKept := by
  intro s t hi hst
  cases step_cases hst with
  | ignored => exact hi.taken
  | read | faultedRead => exact hi.own_fields _ _ _ _
  | accessFault code info v d hc => exact raiseFault_inv info (hi.own_fields s.env.tail s.bus v d) hc
  | illegalWord c he hb =>
    have hq := hi.seq_of_not_busy hb
    exact raiseFault_inv c (hi.taken.operands hq c s.opw s.opv s.dev s.cnt) nofun
  | command c i _ he hb hf hd ht =>
    have hq := hi.seq_of_not_busy hb
    exact exec_inv (hi.taken.operands hq c s.opw s.opv s.dev s.cnt) hb hf hd ht
  | opw v he hb | opv v he hb | dev v he hb | cnt v he hb =>
    have hq := hi.seq_of_not_busy hb
    exact hi.taken.operands hq s.cmd _ _ _ _
  | buf k v hk he hb =>
    have hq := hi.seq_of_not_busy hb
    refine .of_idle hq hb hi.params (Memory.write_wf hi.bufForm _ _) (fun c hc => ?_) hi.code hi.info hi.handle
    obtain rfl | h := Memory.mem_write hc
    · exact hk
    · exact hi.bufRange c h
  | answer a r next he hp => exact answer_inv a hi hp
  | turn f he hp =>
    obtain ⟨hbuf, hnew⟩ := hi.turn_plain hp
    exact applyFinish_inv hi rfl (.inl hbuf) fun h => absurd hnew h
  | reset => exact (resetWith_inv hi.params).own_fields _ _ _ _

/-- Settles O47: the reset state runs nothing and has no handle. -/
theorem resetHasTheInvariant : Obligations.ResetHasTheInvariant :=
  ⟨fun _ => resetWith_inv, resetWith_inv (by decide)⟩

end Sys2Proof.Machine
end

section
/-! The bitfield unit (40_bitfield_algebra.md R101 to R112): its results fit their widths, and RESULT bit by bit after each pure command. -/

namespace Sys2Proof.Machine

/-! ## Bounds (R112) -/

theorem width_bits_le (w : Width) : w.bits ≤ 16 := by cases w <;> decide

theorem testBit_of_ge {n x q : Nat} (hx : x < 2 ^ n) (hq : n ≤ q) : x.testBit q = false :=
  Nat.testBit_lt_two_pow (lt_of_lt_of_le hx (Nat.pow_le_pow_right (by decide) hq))

theorem getBit_lt (x p : Nat) : getBit x p < 2 := getBit_eq x p ▸ Bool.toNat_lt _

theorem setBit_lt {w : Width} (d : Bool) {p x : Nat} (hp : p < w.bits) (hx : x < 2 ^ w.bits) :
    setBit w d p x < 2 ^ w.bits := by
  apply Nat.lt_pow_two_of_testBit
  intro q hq
  rw [testBit_setBit w d q hp hx, if_neg (by omega), testBit_of_ge hx hq]

theorem getBits_lt (x bs len : Nat) : getBits x bs len < 2 ^ len := by
  apply Nat.lt_pow_two_of_testBit
  intro q hq
  rw [testBit_getBits, decide_eq_false (by omega), Bool.false_and]

theorem setBits_lt {w : Width} {x bs len : Nat} (v : Nat) (hx : x < 2 ^ w.bits) (hb : bs < w.bits)
    (hl : len ≤ bs + 1) : setBits w x bs len v < 2 ^ w.bits := by
  apply Nat.lt_pow_two_of_testBit
  intro q hq
  rw [testBit_setBits w v q hx hb hl, if_neg (by omega), testBit_of_ge hx hq]

/-- Settles O9: one bound for each function of the unit. -/
theorem bitfieldResultsFitTheWidth : Obligations.BitfieldResultsFitTheWidth := fun _ x hx =>
  ⟨getBit_lt x, fun d _ hp => setBit_lt d hp hx, fun bs len hb hl =>
    ⟨getBits_lt x bs len, fun v _ => setBits_lt v hx hb hl⟩⟩

/-! ## A value in RESULT -/

theorem getLsbD_zext32 {n w : Nat} (hn : n < 2 ^ w) (hw : w ≤ 32) (q : Nat) : (zext32 n).getLsbD q = n.testBit q := by
  rw [zext32, BitVec.getLsbD_ofNat]
  by_cases hq : q < 32
  · simp [hq]
  · simp [hq, testBit_of_ge hn (show w ≤ q by omega)]

/-- A bit as a word. -/
theorem zext32_toNat (b : Bool) : zext32 b.toNat = if b then 1#32 else 0#32 := by cases b <;> rfl

section
variable (w : Width) (s : State)

/-- A pure command whose check passes completes with its result (R102). -/
theorem bitCommand_valid {p : BitVec 4} (r : Nat) (hp : p.toNat < w.bits) :
    bitCommand w p r s = .next (s.succeeded (zext32 r)) := if_pos (decide_eq_true hp)

theorem fieldCommand_valid {bs : BitVec 4} {len : BitVec 5} (r : Nat) (hb : bs.toNat < w.bits)
    (hl : len.toNat ≤ bs.toNat + 1) : fieldCommand w bs len r s = .next (s.succeeded (zext32 r)) :=
  if_pos (decide_eq_true ⟨hb, hl⟩)

theorem operandWord_bit (v : Half) {q : Nat} (hq : q < w.bits) : (operandWord w v).testBit q = v.getLsbD q := by
  rw [testBit_operandWord, decide_eq_true hq, Bool.true_and]

theorem getbit_result (v : Half) {p : Nat} (hp : p < w.bits) :
    zext32 (getBit (operandWord w v) p) = if v.getLsbD p then 1#32 else 0#32 := by
  rw [getBit_eq, operandWord_bit w v hp, zext32_toNat]

theorem setbit_result (d : Bool) (v : Half) {p : Nat} (hp : p < w.bits) (q : Nat) :
    (zext32 (setBit w d p (operandWord w v))).getLsbD q =
      (decide (q < w.bits) && if q = p then d else v.getLsbD q) := by
  have hx := operandWord_lt w v
  rw [getLsbD_zext32 (setBit_lt d hp hx) (by have := width_bits_le w; omega), testBit_setBit w d q hp hx,
    testBit_operandWord]
  split
  · simp [*]
  · rfl

/-- The field of a word of the width, in RESULT; `x` names its bits. -/
theorem getbits_result {n bs len : Nat} (x : Nat → Bool) (hx : ∀ q, q < w.bits → n.testBit q = x q) (hb : bs < w.bits)
    (hl : len ≤ bs + 1) (q : Nat) :
    (zext32 (getBits n bs len)).getLsbD q = (decide (q < len) && x (bs + 1 - len + q)) := by
  rw [getLsbD_zext32 (getBits_lt _ _ _) (by have := width_bits_le w; omega), testBit_getBits]
  by_cases hq : q < len
  · rw [hx _ (by omega)]
  · simp [hq]

theorem setbits_result (x v : Half) {bs len : Nat} (hb : bs < w.bits) (hl : len ≤ bs + 1) (q : Nat) :
    (zext32 (setBits w (operandWord w x) bs len (operandWord w v))).getLsbD q =
      (decide (q < w.bits) &&
        if bs + 1 - len ≤ q ∧ q ≤ bs then v.getLsbD (q - (bs + 1 - len)) else x.getLsbD q) := by
  have hx := operandWord_lt w x
  rw [getLsbD_zext32 (setBits_lt _ hx hb hl) (by have := width_bits_le w; omega), testBit_setBits w _ q hx hb hl]
  split
  · rw [operandWord_bit w v (by omega), decide_eq_true (by omega), Bool.true_and]
  · exact testBit_operandWord w x q

end

/-- Settles O10: the check passes, and `getbit_result` at each width. -/
theorem getbitReadsTheBit : Obligations.GetbitReadsTheBit := by
  refine fun s p => ⟨fun hp => ?_, ?_⟩
  · rw [← getbit_result .w8 s.opw hp]
    exact bitCommand_valid .w8 s _ hp
  · rw [← getbit_result .w16 s.opw p.isLt]
    exact bitCommand_valid .w16 s _ p.isLt

/-- Settles O11: the check passes, and `setbit_result` at each width. -/
theorem setbitChangesOneBit : Obligations.SetbitChangesOneBit := fun s d p =>
  ⟨fun hp => ⟨_, bitCommand_valid .w8 s _ hp, setbit_result .w8 d s.opw hp⟩,
    _, bitCommand_valid .w16 s _ p.isLt, setbit_result .w16 d s.opw p.isLt⟩

/-- Settles O12: the check passes, and `getbits_result` at each width. -/
theorem getbitsExtractsTheField : Obligations.GetbitsExtractsTheField := fun s bs _ hl =>
  ⟨fun hb => ⟨_, fieldCommand_valid .w8 s _ hb hl, getbits_result .w8 _ (fun _ => operandWord_bit .w8 s.opw) hb hl⟩,
    _, fieldCommand_valid .w16 s _ bs.isLt hl, getbits_result .w16 _ (fun _ => operandWord_bit .w16 s.opw) bs.isLt hl⟩

/-- Settles O13: the check passes, and `setbits_result` at each width. -/
theorem setbitsReplacesTheField : Obligations.SetbitsReplacesTheField := fun s bs _ hl =>
  ⟨fun hb => ⟨_, fieldCommand_valid .w8 s _ hb hl, setbits_result .w8 s.opw s.opv hb hl⟩,
    _, fieldCommand_valid .w16 s _ bs.isLt hl, setbits_result .w16 s.opw s.opv bs.isLt hl⟩

end Sys2Proof.Machine
end

section
/-! A command from its acceptance to its completion (41_register_access.md R130): what a request sequence does with a list of answers, and that the steps which take these answers do the same. -/

namespace Sys2Proof.Machine

/-! ## A request sequence and a list of answers -/

/-- The requests a sequence sends and how it ends, if the answers are exactly those it waits for; `d` counts the free
values used, as `draws` does. -/
def Proc.run : Proc → Nat → List Answer → Option (List Request × Finish × Nat)
  | .finish f, d, [] => some ([], f, d)
  | .finish _, _, _ :: _ => none
  | .request _ _, _, [] => none
  | .request r next, d, a :: as =>
    ((next (delivered r d a)).run (d + deliveredDraws r a) as).map fun (rs, f, d') => (r :: rs, f, d')

theorem Proc.run_request {r : Request} {next : Answer → Proc} {d : Nat} {a : Answer} {as : List Answer}
    {rs : List Request} {f : Finish} {d' : Nat} (h : (Proc.request r next).run d (a :: as) = some (rs, f, d')) :
    ∃ rs', rs = r :: rs' ∧ (next (delivered r d a)).run (d + deliveredDraws r a) as = some (rs', f, d') := by
  obtain ⟨⟨rs', f', d''⟩, h, he⟩ := Option.map_eq_some_iff.mp h
  cases he
  exact ⟨rs', rfl, h⟩

/-! ## The steps that take the answers -/

theorem steps_succ {s t : State} (n : Nat) (h : step s = .next t) : steps (n + 1) s = steps n t := by
  rw [steps, h]

theorem steps_one (s : State) : steps 1 s = step s := by
  rw [steps]
  cases step s <;> rfl

theorem step_answer {s : State} {a : Answer} {rest : List Event} {r : Request} {next : Answer → Proc}
    (he : s.env = .answer a :: rest) (hp : pending s = some (.request r next)) :
    step s = .next (advance (next (delivered r s.draws a))
      { s with env := rest, seq := s.seq.received (delivered r s.draws a), draws := s.draws + deliveredDraws r a }) :=
  (step_cons he).trans (congrArg Host.Outcome.next (takeAnswer_request (s := { s with env := rest }) a hp))

/-- The end of a command overwrites SEQ and BUSY. -/
theorem applyFinish_congr {s t : State} (f : Finish)
    (h : t = { s with seq := t.seq, status := { s.status with busy := t.status.busy } }) :
    applyFinish f t = applyFinish f s := by
  rw [applyFinish_eq, applyFinish_eq, h]
  cases f.buf <;> rfl

/-- One step for each answer: the requests go out, and the command ends as its sequence does. -/
theorem steps_of_run {f : Finish} {d : Nat} {rest : List Event} (as : List Answer) :
    ∀ {s : State} {r : Request} {next : Answer → Proc} {rs : List Request}, pending s = some (.request r next) →
      s.env = as.map .answer ++ rest → (Proc.request r next).run s.draws as = some (r :: rs, f, d) →
      steps as.length s = .next (applyFinish f { s with env := rest, bus := s.bus ++ rs, draws := d }) := by
  induction as with
  | nil => intro s r next rs _ _ hrun; cases hrun
  | cons a as ih =>
    intro s r next rs hp he hrun
    obtain ⟨rs', hrs, hrun⟩ := Proc.run_request hrun
    obtain rfl : rs = rs' := (List.cons.inj hrs).2
    rw [List.length_cons, steps_succ _ (step_answer he hp)]
    cases hn : next (delivered r s.draws a) with
    | finish g =>
      rw [hn] at hrun
      cases as with
      | nil =>
        cases hrun
        rw [advance_finish, List.append_nil]
        exact congrArg Host.Outcome.next (applyFinish_congr f rfl)
      | cons => cases hrun
    | request r' next' =>
      rw [hn] at hrun
      cases as with
      | nil => cases hrun
      | cons b as =>
        obtain ⟨rs', rfl, -⟩ := Proc.run_request hrun
        have hp' : pending (advance (.request r' next') { s with
            env := (b :: as).map .answer ++ rest
            seq := s.seq.received (delivered r s.draws a)
            draws := s.draws + deliveredDraws r a }) = some (next (delivered r s.draws a)) :=
          pending_received hp rfl rfl
        rw [hn] at hp'
        refine (ih hp' rfl hrun).trans (congrArg Host.Outcome.next (applyFinish_congr f ?_))
        simp [advance_request]

/-- A command from the accepting step, which has sent its first request, to its end. -/
theorem steps_started {s : State} {i : Instr} {o : Latched} {p : Proc} {r : Request} {rs : List Request} {f : Finish}
    {d : Nat} {rest : List Event} (as : List Answer) (hd : decode s.cmd = .ok i) (hp : procOf i s.params o = some p)
    (hrun : p.run s.draws as = some (r :: rs, f, d)) (he : s.env = as.map .answer ++ rest) :
    steps as.length (s.started o [r]) = .next (applyFinish f { s.requested rest (r :: rs) with draws := d }) := by
  cases as with
  | nil => cases p <;> simp [Proc.run] at hrun
  | cons a as =>
    cases p with
    | finish => cases hrun
    | request r' next =>
      obtain ⟨rs', hrs, -⟩ := Proc.run_request hrun
      obtain ⟨rfl, rfl⟩ := List.cons.inj hrs
      have hpend : pending (s.started o [r]) = some (.request r next) := by
        rw [pending_running (i := i) rfl hd]
        simp [State.started, hp]
      rw [steps_of_run (a :: as) hpend he hrun]
      refine congrArg Host.Outcome.next ((applyFinish_congr f ?_).trans rfl)
      simp [State.started, State.requested]

end Sys2Proof.Machine
end

section
/-! Each bus command and INIT from acceptance to completion (41_register_access.md R132 to R153, 42_global_handle.md R180): the requests of each procedure when every answer is a success, and what RESULT, BUF or the last write then hold. -/

namespace Sys2Proof.Machine

/-! ## Procedures and successful answers -/

theorem exactly_self {n : Nat} {data : List Byte} (d : Nat) (h : data.length = n) : exactly n d data = data := by
  subst h
  simp [exactly, freeBytes]

section
variable {w : Width} {o : Latched} {as : List Answer} {rs : List Request} {f : Finish} {d d' : Nat}

theorem busWrite_run {bytes : List Byte} {stop : Bool} {next : Bool → Proc}
    (h : (next true).run d as = some (rs, f, d')) :
    (busWrite o bytes stop next).run d (.done :: as) = some (.busWrite o.conn o.dev bytes stop :: rs, f, d') :=
  Option.map_eq_some_iff.mpr ⟨_, h, rfl⟩

theorem busRead_run {stop : Bool} {next : Option (List Byte) → Proc} {data : List Byte}
    (h : (next (some data)).run d as = some (rs, f, d')) :
    (busRead o data.length stop next).run d (.withData data :: as) =
      some (.busRead o.conn o.dev data.length stop :: rs, f, d') := by
  refine Option.map_eq_some_iff.mpr ⟨(rs, f, d'), ?_, rfl⟩
  simpa [delivered, deliveredData, deliveredDraws, Answer.withData, exactly_self] using h

theorem rawRead_run {stop : Bool} {next : Option Nat → Proc} {data : List Byte} (hl : data.length = w.bytes)
    (h : (next (some (bytesWord w data))).run d as = some (rs, f, d')) :
    (rawRead w o stop next).run d (.withData data :: as) =
      some (.busRead o.conn o.dev w.bytes stop :: rs, f, d') := by
  rw [rawRead, ← hl]
  exact busRead_run h

theorem readReg_run {reg : Byte} {next : Option Nat → Proc} {data : List Byte} (hl : data.length = w.bytes)
    (h : (next (some (bytesWord w data))).run d as = some (rs, f, d')) :
    (readReg w o reg next).run d (.done :: .withData data :: as) =
      some (.busWrite o.conn o.dev [reg] false :: .busRead o.conn o.dev w.bytes true :: rs, f, d') :=
  busWrite_run (rawRead_run hl h)

end

/-! ## The steps of each kind of command -/

/-- A bus command whose checks pass starts its sequence (R195). -/
theorem startBus_handle {s : State} (hh : s.handle ≠ 0#32) (proc : Params → Latched → Proc) (o : Latched) :
    startBus proc o s = .next (start (proc s.params o) o s) := if_neg hh

theorem startBit_handle {s : State} (hh : s.handle ≠ 0#32) {w : Width} {p : BitVec 4}
    (proc : Params → Latched → Proc) (hp : p.toNat < w.bits) :
    startBit w p proc s = .next (start (proc s.params (latch s)) (latch s) s) :=
  (if_pos (decide_eq_true hp)).trans (startBus_handle hh proc _)

theorem startField_handle {s : State} (hh : s.handle ≠ 0#32) {w : Width} {bs : BitVec 4} {len : BitVec 5}
    (proc : Params → Latched → Proc) (hb : bs.toNat < w.bits) (hl : len.toNat ≤ bs.toNat + 1) :
    startField w bs len proc s = .next (start (proc s.params (latch s)) (latch s) s) :=
  (if_pos (decide_eq_true ⟨hb, hl⟩)).trans (startBus_handle hh proc _)

section
variable {s : State} {i : Instr} {w : Width} {reg : Byte} {stop : Bool} {data : List Byte} {rest : List Event}
  (hd : decode s.cmd = .ok i)
include hd

/-- A command that ends without an effect on BUF or HANDLE. -/
theorem steps_completed {o : Latched} {p : Proc} {r : Request} {rs : List Request} {ok : Bool} {res : Word}
    (as : List Answer) (hp : procOf i s.params o = some p)
    (hrun : p.run s.draws as = some (r :: rs, ⟨ok, res, .keep, none⟩, s.draws))
    (he : s.env = as.map .answer ++ rest) :
    steps as.length (s.started o [r]) = .next ((s.requested rest (r :: rs)).completed ok res) :=
  steps_started as hd hp hrun he

/-- Reading a register (R132): `next` is what the command makes of the value. -/
theorem steps_readReg {next : Option Nat → Proc} {res : Word}
    (hp : procOf i s.params (latch s) = some (readReg w (latch s) reg next)) (hl : data.length = w.bytes)
    (hn : next (some (bytesWord w data)) = finishWith true res)
    (he : s.env = .answer .done :: .answer (.withData data) :: rest) :
    steps 2 (s.started (latch s) [.busWrite s.handle s.dev [reg] false]) =
      .next ((s.requested rest
        [.busWrite s.handle s.dev [reg] false, .busRead s.handle s.dev w.bytes true]).completed true res) :=
  steps_completed hd [.done, .withData data] hp (readReg_run hl (by rw [hn]; rfl)) he

/-- A raw read (R134). -/
theorem steps_rawRead {next : Option Nat → Proc} {res : Word}
    (hp : procOf i s.params (latch s) = some (rawRead w (latch s) stop next)) (hl : data.length = w.bytes)
    (hn : next (some (bytesWord w data)) = finishWith true res)
    (he : s.env = .answer (.withData data) :: rest) :
    steps 1 (s.started (latch s) [.busRead s.handle s.dev w.bytes stop]) =
      .next ((s.requested rest [.busRead s.handle s.dev w.bytes stop]).completed true res) :=
  steps_completed hd [.withData data] hp (rawRead_run hl (by rw [hn]; rfl)) he

/-- One write transaction (R133, R141). -/
theorem steps_write {bytes : List Byte} {o : Latched}
    (hp : procOf i s.params o = some (busWrite o bytes true finishBool)) (he : s.env = .answer .done :: rest) :
    steps 1 (s.started o [.busWrite o.conn o.dev bytes true]) =
      .next ((s.requested rest [.busWrite o.conn o.dev bytes true]).completed true 1#32) :=
  steps_completed hd [.done] hp rfl he

/-- Read-modify-write of a register (R148 to R151). -/
theorem steps_modifyReg {f : Nat → Nat} (hp : procOf i s.params (latch s) = some (modifyReg w (latch s) reg f))
    (hl : data.length = w.bytes)
    (he : s.env = .answer .done :: .answer (.withData data) :: .answer .done :: rest) :
    steps 3 (s.started (latch s) [.busWrite s.handle s.dev [reg] false]) =
      .next ((s.requested rest
        [.busWrite s.handle s.dev [reg] false, .busRead s.handle s.dev w.bytes true,
          .busWrite s.handle s.dev (reg :: wordBytes w (f (bytesWord w data))) true]).completed true 1#32) :=
  steps_completed hd [.done, .withData data, .done] hp (readReg_run hl rfl) he

/-- Read-modify-write of the raw bus value (R152, R153). -/
theorem steps_modifyRaw {f : Nat → Nat} (hp : procOf i s.params (latch s) = some (modifyRaw w (latch s) stop f))
    (hl : data.length = w.bytes) (he : s.env = .answer (.withData data) :: .answer .done :: rest) :
    steps 2 (s.started (latch s) [.busRead s.handle s.dev w.bytes stop]) =
      .next ((s.requested rest
        [.busRead s.handle s.dev w.bytes stop,
          .busWrite s.handle s.dev (wordBytes w (f (bytesWord w data))) stop]).completed true 1#32) :=
  steps_completed hd [.withData data, .done] hp (rawRead_run hl rfl) he

end

/-! ## Words and the bytes that carry them (R53) -/

theorem bytesWord_byte_bit (b : Byte) (q : Nat) : (bytesWord .w8 [b]).testBit q = b.getLsbD q := by
  rw [bytesWord_byte, BitVec.testBit_toNat]

theorem bytesWord_word_bit (b0 b1 : Byte) (q : Nat) : (bytesWord .w16 [b0, b1]).testBit q = (b0 ++ b1).getLsbD q := by
  rw [bytesWord_word, BitVec.testBit_toNat]

theorem bytesWord_lt (w : Width) (data : List Byte) : bytesWord w data < 2 ^ w.bits := by
  have hbyte (k : Nat) : dataByte data k < 2 ^ 8 := (data.getD k 0#8).isLt
  cases w with
  | w8 => exact hbyte 0
  | w16 =>
    refine Nat.or_lt_two_pow (n := 16) ?_ (Nat.lt_of_lt_of_le (hbyte 1) (by decide))
    have := hbyte 0
    rw [Nat.shiftLeft_eq]
    omega

theorem lowByte_bit (n : Nat) {q : Nat} (hq : q < 8) : (lowByte n).getLsbD q = n.testBit q := by
  rw [getLsbD_lowByte, decide_eq_true hq, Bool.true_and]

theorem highByte_append_lowByte_bit (n : Nat) {q : Nat} (hq : q < 16) :
    (highByte n ++ lowByte n).getLsbD q = n.testBit q := by
  rw [BitVec.getLsbD_append, getLsbD_lowByte, getLsbD_highByte]
  by_cases h : q < 8
  · simp [h]
  · simp [h, show q - 8 < 8 by omega, show 8 + (q - 8) = q by omega]

theorem wordBytes_byte (v : Half) : wordBytes .w8 (operandWord .w8 v) = [v.extractLsb' 0 8] := by
  simp only [wordBytes, List.cons.injEq, and_true]
  apply BitVec.eq_of_getLsbD_eq
  intro q hq
  rw [lowByte_bit _ hq, operandWord_bit .w8 v hq, BitVec.getLsbD_extractLsb', decide_eq_true hq, Bool.true_and,
    Nat.zero_add]

theorem wordBytes_word (v : Half) : wordBytes .w16 (operandWord .w16 v) = [v.extractLsb' 8 8, v.extractLsb' 0 8] := by
  simp only [wordBytes, List.cons.injEq, and_true]
  constructor <;> apply BitVec.eq_of_getLsbD_eq <;> intro q hq
  · rw [getLsbD_highByte, operandWord_bit .w16 v (show 8 + q < 16 by omega), BitVec.getLsbD_extractLsb']
  · rw [lowByte_bit _ hq, operandWord_bit .w16 v (show q < 16 by omega), BitVec.getLsbD_extractLsb',
      decide_eq_true hq, Bool.true_and, Nat.zero_add]

/-! ## Register reads and writes -/

/-- Settles O14: `steps_readReg`; the value of the bytes read is RESULT. -/
theorem rdregReturnsTheRegister : Obligations.RdregReturnsTheRegister := by
  refine fun s reg b0 b1 rest hh => ⟨⟨startBus_handle hh .., fun hd he => ?_⟩, startBus_handle hh .., fun hd he => ?_⟩
  · exact steps_readReg (w := .w8) (data := [b0]) hd rfl rfl (by simp [finishValue, zext32]) he
  · refine steps_readReg (w := .w16) (data := [b0, b1]) hd rfl rfl ?_ he
    simp only [finishValue, zext32, bytesWord_word, BitVec.ofNat_toNat]

/-- Settles O16: the payload is the index byte and the bytes of OPV, high byte first. -/
theorem wrregSendsOneTransaction : Obligations.WrregSendsOneTransaction := by
  intro s reg rest hh
  rw [← wordBytes_word, ← wordBytes_byte]
  exact ⟨⟨startBus_handle hh .., fun hd he => steps_write hd rfl he⟩,
    startBus_handle hh .., fun hd he => steps_write hd rfl he⟩

theorem exactly_getElem? {n d k : Nat} {data : List Byte} {u : Byte} (hk : k < n) (h : data[k]? = some u) :
    (exactly n d data)[k]? = some u := by
  have hl : k < data.length := (List.getElem?_eq_some_iff.mp h).1
  rw [exactly, List.getElem?_append_left (by simp; omega), List.getElem?_take_of_lt hk, h]

/-- Settles O15: the data delivered is stored from BUF[0] on. -/
theorem rdregsFillsTheBuffer : Obligations.RdregsFillsTheBuffer := by
  intro s reg data rest hh hcnt
  have hread (k : Nat) : (s.buf.store 0 (exactly s.cnt.toNat s.draws data)).read k =
      if k < s.cnt.toNat then (exactly s.cnt.toNat s.draws data)[k]? else s.buf.read k := by
    simp [Memory.read_store, exactly_length]
  refine ⟨(if_neg hcnt.not_gt).trans (startBus_handle hh ..), fun hd he =>
    ⟨_, steps_started [.done, .withData data] hd rfl rfl he, rfl, fun k hk => ?_, fun k hk => ?_⟩⟩
  · obtain ⟨v, hv⟩ : ∃ v, (exactly s.cnt.toNat s.draws data)[k]? = some v := by
      simp [exactly_length, hk]
    exact ⟨v, ((hread k).trans (if_pos hk)).trans hv,
      fun u hu => Option.some.inj (hv.symm.trans (exactly_getElem? hk hu))⟩
  · exact (hread k).trans (if_neg hk.not_gt)

/-- WRREGS with CNT <= MAX_N latches its payload, byte for byte a read of BUF, and sends it (R77, R141). -/
theorem exec_wrregs {s : State} (reg : Byte) (hh : s.handle ≠ 0#32) (hcnt : s.cnt.toNat ≤ s.params.maxN) :
    exec (.wrregs reg) s = .next ({ s with draws := s.draws + s.cnt.toNat }.started
      { latch s with payload := memRead s.buf s.cnt.toNat s.draws }
      [.busWrite s.handle s.dev (reg :: memRead s.buf s.cnt.toNat s.draws) true]) := by
  rw [exec, execWrregs, if_neg hh]
  simp only [latchPayload, payloadDraws, if_pos hcnt, wrregsProc]
  rw [if_neg (by exact hcnt.not_gt)]
  rfl

/-- Settles O17: one write transaction of the payload latched. -/
theorem wrregsSendsTheBuffer : Obligations.WrregsSendsTheBuffer := by
  intro s reg rest hh hcnt
  refine ⟨memRead s.buf s.cnt.toNat s.draws, memRead_length .., fun k v hk hv => memRead_value hk hv, _,
    exec_wrregs reg hh hcnt, rfl, fun hd he => ?_⟩
  exact steps_write (s := { s with draws := s.draws + s.cnt.toNat })
    (o := { latch s with payload := memRead s.buf s.cnt.toNat s.draws }) hd (congrArg some (if_neg hcnt.not_gt)) he

/-- WRREGS with CNT > MAX_N starts with no request to send (R141; log entry 10). -/
theorem exec_wrregs_beyond {s : State} (reg : Byte) (hh : s.handle ≠ 0#32) (hcnt : s.params.maxN < s.cnt.toNat) :
    exec (.wrregs reg) s = .next (s.started (latch s) []) := by
  rw [exec, execWrregs, if_neg hh]
  simp only [latchPayload, payloadDraws, if_neg hcnt.not_ge, wrregsProc]
  rw [if_pos (by exact hcnt), State.started, List.append_nil]
  rfl

/-- Settles O18: what is left of the command is its failure, which BLOCK's own turn carries out. -/
theorem wrregsBeyondMaxNFails : Obligations.WrregsBeyondMaxNFails := by
  refine fun s reg rest hh hcnt => ⟨exec_wrregs_beyond reg hh hcnt, fun hd he => ?_⟩
  have hp : pending ({ s with env := rest }.started (latch s) []) = some (finishBool false) := by
    rw [pending_running (i := .wrregs reg) rfl hd]
    exact congrArg some ((Proc.after_nil _).trans (if_pos hcnt))
  rw [steps_one]
  refine (step_cons (s := s.started (latch s) []) he).trans
    (congrArg Host.Outcome.next ((blockTurn_finish hp).trans ?_))
  refine (applyFinish_congr (s := { s with env := rest }) _ ?_).trans rfl
  rw [State.started, List.append_nil]

/-! ## Register bit and bitfield reads -/

/-- A bit of a byte in RESULT, normalized or in its place (R142). -/
theorem readbit8_result (normalize : Bool) (n p : Nat) :
    zext32 (readBit8 normalize n p) =
      if n.testBit p then (if normalize then 1#32 else 1#32 <<< p) else 0#32 := by
  cases normalize with
  | true => exact (congrArg zext32 (getBit_eq n p)).trans (zext32_toNat _)
  | false =>
    rw [readBit8, if_neg (by decide), Nat.one_shiftLeft, Nat.and_two_pow]
    cases n.testBit p
    · simp [zext32]
    · apply BitVec.eq_of_toNat_eq
      simp [zext32, Nat.shiftLeft_eq]

/-- Settles O19: `steps_readReg`, and what the command makes of the value read. -/
theorem rdregbitReadsTheBit : Obligations.RdregbitReadsTheBit := by
  refine fun s reg b0 b1 p rest hh => ⟨fun hp => ⟨startBit_handle hh _ hp, fun hd he => ?_⟩,
    startBit_handle hh _ p.isLt, fun hd he => ?_⟩
  · rw [← bytesWord_byte_bit, ← readbit8_result]
    exact steps_readReg (w := .w8) (data := [b0]) hd rfl rfl rfl he
  · rw [← bytesWord_word_bit, ← zext32_toNat, ← getBit_eq]
    exact steps_readReg (w := .w16) (data := [b0, b1]) hd rfl rfl rfl he

/-- Settles O20: `steps_readReg`, and the field of the value read. -/
theorem rdregbfReadsTheField : Obligations.RdregbfReadsTheField := by
  refine fun s reg b0 b1 bs len rest hh hl => ⟨fun hb => ⟨startField_handle hh _ hb hl, fun hd he =>
    ⟨_, steps_readReg (w := .w8) (data := [b0]) hd rfl rfl rfl he, ?_⟩⟩,
    startField_handle hh _ bs.isLt hl, fun hd he =>
    ⟨_, steps_readReg (w := .w16) (data := [b0, b1]) hd rfl rfl rfl he, ?_⟩⟩
  · exact getbits_result .w8 _ (fun q _ => bytesWord_byte_bit b0 q) hb hl
  · exact getbits_result .w16 _ (fun q _ => bytesWord_word_bit b0 b1 q) bs.isLt hl

/-- Settles O21: `steps_rawRead`, and the field of the value read. -/
theorem rdbitsReadsTheRawField : Obligations.RdbitsReadsTheRawField := by
  refine fun s b0 b1 bs len stop rest hh hl => ⟨fun hb => ⟨startField_handle hh _ hb hl, fun hd he =>
    ⟨_, steps_rawRead (w := .w8) (data := [b0]) hd rfl rfl rfl he, ?_⟩⟩,
    startField_handle hh _ bs.isLt hl, fun hd he =>
    ⟨_, steps_rawRead (w := .w16) (data := [b0, b1]) hd rfl rfl rfl he, ?_⟩⟩
  · exact getbits_result .w8 _ (fun q _ => bytesWord_byte_bit b0 q) hb hl
  · exact getbits_result .w16 _ (fun q _ => bytesWord_word_bit b0 b1 q) bs.isLt hl

/-! ## Read-modify-write -/

/-- Settles O22: `steps_modifyReg`; the bytes written carry the value read with bit p replaced. -/
theorem wrregbitWritesTheBit : Obligations.WrregbitWritesTheBit := by
  refine fun s reg b0 b1 p d rest hh => ⟨fun hp => ⟨startBit_handle hh _ hp, fun hd he =>
    ⟨_, steps_modifyReg (w := .w8) (data := [b0]) hd rfl rfl he, fun q hq => ?_⟩⟩,
    startBit_handle hh _ p.isLt, fun hd he =>
    ⟨_, _, steps_modifyReg (w := .w16) (data := [b0, b1]) hd rfl rfl he, fun q hq => ?_⟩⟩
  · rw [lowByte_bit _ hq, testBit_setBit .w8 d q hp (bytesWord_lt ..), bytesWord_byte_bit]
  · rw [highByte_append_lowByte_bit _ hq, testBit_setBit .w16 d q p.isLt (bytesWord_lt ..), bytesWord_word_bit]

section
variable (v : Half) {bs len : Nat} (hl : len ≤ bs + 1)
include hl

/-- A byte read and written back with its field replaced. -/
theorem modified_byte_bit (b : Byte) (hb : bs < 8) {q : Nat} (hq : q < 8) :
    (lowByte (setBits .w8 (bytesWord .w8 [b]) bs len (operandWord .w8 v))).getLsbD q =
      if bs + 1 - len ≤ q ∧ q ≤ bs then v.getLsbD (q - (bs + 1 - len)) else b.getLsbD q := by
  rw [lowByte_bit _ hq, testBit_setBits .w8 _ q (bytesWord_lt ..) hb hl, bytesWord_byte_bit,
    operandWord_bit .w8 v (show q - (bs + 1 - len) < 8 by omega)]

theorem modified_word_bit (b0 b1 : Byte) (hb : bs < 16) {q : Nat} (hq : q < 16) :
    (highByte (setBits .w16 (bytesWord .w16 [b0, b1]) bs len (operandWord .w16 v)) ++
        lowByte (setBits .w16 (bytesWord .w16 [b0, b1]) bs len (operandWord .w16 v))).getLsbD q =
      if bs + 1 - len ≤ q ∧ q ≤ bs then v.getLsbD (q - (bs + 1 - len)) else (b0 ++ b1).getLsbD q := by
  rw [highByte_append_lowByte_bit _ hq, testBit_setBits .w16 _ q (bytesWord_lt ..) hb hl, bytesWord_word_bit,
    operandWord_bit .w16 v (show q - (bs + 1 - len) < 16 by omega)]

end

/-- Settles O23: `steps_modifyReg`; the bytes written carry the value read with the field replaced. -/
theorem wrregbfWritesTheField : Obligations.WrregbfWritesTheField := by
  refine fun s reg b0 b1 bs len rest hh hl => ⟨fun hb => ⟨startField_handle hh _ hb hl, fun hd he =>
    ⟨_, steps_modifyReg (w := .w8) (data := [b0]) hd rfl rfl he, fun q hq => ?_⟩⟩,
    startField_handle hh _ bs.isLt hl, fun hd he =>
    ⟨_, _, steps_modifyReg (w := .w16) (data := [b0, b1]) hd rfl rfl he, fun q hq => ?_⟩⟩
  · exact modified_byte_bit s.opv hl b0 hb hq
  · exact modified_word_bit s.opv hl b0 b1 bs.isLt hq

/-- Settles O24: `steps_modifyRaw`; the bytes written carry the value read with the field replaced. -/
theorem wrbitsWritesTheRawField : Obligations.WrbitsWritesTheRawField := by
  refine fun s b0 b1 bs len stop rest hh hl => ⟨fun hb => ⟨startField_handle hh _ hb hl, fun hd he =>
    ⟨_, steps_modifyRaw (w := .w8) (data := [b0]) hd rfl rfl he, fun q hq => ?_⟩⟩,
    startField_handle hh _ bs.isLt hl, fun hd he =>
    ⟨_, _, steps_modifyRaw (w := .w16) (data := [b0, b1]) hd rfl rfl he, fun q hq => ?_⟩⟩
  · exact modified_byte_bit s.opv hl b0 hb hq
  · exact modified_word_bit s.opv hl b0 b1 bs.isLt hq

/-! ## INIT -/

/-- INIT's `Create` and its answer (R180). -/
theorem initProc_run (ps : Params) (o : Latched) (d : Nat) (h : Word) :
    (initProc ps o).run d [.withHandle h] = some ([.create ps.i2cConfig],
      if h = 0#32 then ⟨false, 0#32, .keep, none⟩ else ⟨true, 1#32, .keep, some h⟩, d) := by
  by_cases hz : h = 0#32
  · subst hz
    rfl
  · simp [initProc, createHandle, Proc.run, delivered, deliveredDraws, Answer.withHandle, hz]

/-- Settles O26: with I2C enabled, `initProc_run` for a nonzero and a zero handle. -/
theorem initCreatesTheHandle : Obligations.InitCreatesTheHandle := by
  intro s h rest hi
  have hexec : exec .init s = if s.params.i2cEnabled then
      .next ({ s with status := { s.status with initd := true } }.started (latch s) [.create s.params.i2cConfig])
      else .next ({ s with status := { s.status with initd := true } }.completed true 1#32) :=
    if_neg (by simp [hi])
  refine ⟨fun he => hexec.trans (if_neg (by simp [he])), fun he => ⟨hexec.trans (if_pos he), fun hd henv => ?_⟩⟩
  have hsteps := steps_started (s := { s with status := { s.status with initd := true } }) (o := latch s)
    [.withHandle h] hd rfl (initProc_run ..) henv
  refine ⟨fun hne => ?_, fun hz => ?_⟩
  · rw [if_neg hne] at hsteps
    exact hsteps
  · rw [if_pos hz] at hsteps
    exact hsteps

end Sys2Proof.Machine
end

section
/-! The host port (10_state.md R21 to R32, 20_memory.md R51, 60_exceptions.md R196 to R202): accepting a command word, host writes and reads with nothing running, the accesses that fault, and reset. -/

namespace Sys2Proof.Machine

/-! ## Accepting a command -/

/-- Settles O6: a ready block takes the word (`step_acceptsWord`), and it decodes to the command. -/
theorem stepRunsTheDecodedCommand : Obligations.StepRunsTheDecodedCommand := by
  intro s c i rest hs he hd
  rw [step_acceptsWord hs he, accept, hd]
  rfl

theorem accept_next (c : Word) (s : State) : ∃ t, accept c s = .next t := by
  unfold accept
  split
  · exact exec_next _ _
  · exact ⟨_, rfl⟩

theorem hostWrite_next (bits off : Nat) (v : Word) (s : State) : ∃ t, hostWrite bits off v s = .next t := by
  unfold hostWrite
  split
  · exact ⟨_, rfl⟩
  split
  · exact ⟨_, rfl⟩
  split
  · exact ⟨_, rfl⟩
  rename_i r _ _
  cases r with
  | cmd => exact accept_next v s
  | _ => exact ⟨_, rfl⟩

/-- Settles O7: only a host write can run a command, and every command answers a next state (`exec_next`). -/
theorem everyStepAnswersANextState : Obligations.EveryStepAnswersANextState := by
  intro s
  cases he : s.env with
  | nil => exact ⟨_, step_nil he⟩
  | cons e rest =>
    rw [step_cons he]
    cases e with
    | hostWrite bits off v => exact hostWrite_next bits off v _
    | _ => exact ⟨_, rfl⟩

/-- Settles O27: the accepting step of GETGLOBAL is its completion. -/
theorem getglobalReturnsTheHandle : Obligations.GetglobalReturnsTheHandle := fun _ => rfl

/-- Settles O37: RDREGS looks at its count before it asks for a handle (R203). -/
theorem rdregsBeyondMaxNRaisesCountRange : Obligations.RdregsBeyondMaxNRaisesCountRange := fun _ _ hs hc =>
  (if_pos hc).trans (commandFault_ready .countRange hs)

/-! ## The fault entry, whether or not a command runs (R200, R201) -/

/-- Abandoning what runs, if anything does, changes BUSY, SEQ, touched BUF bytes and the counter of free values. -/
theorem abandon_frame {s : State} (hb : s.seq = .idle → s.status.busy = false) :
    abandon s = { s with
      status := { s.status with busy := false }
      seq := .idle
      buf := (abandon s).buf
      draws := (abandon s).draws } := by
  by_cases hq : s.seq = .idle
  · rw [abandon_idle hq, ← hb hq, ← hq]
  · rw [abandon_running hq]

/-- Abandoning touches no byte of BUF but the first `touchedBytes`. -/
theorem abandon_read {s : State} {a : Nat} (ha : touchedBytes s.seq ≤ a) : (abandon s).buf.read a = s.buf.read a := by
  by_cases hq : s.seq = .idle
  · rw [abandon_idle hq]
  · rw [abandon_running hq]
    exact drawBuf_read s ha

theorem abandon_untouched {s : State} (hz : touchedBytes s.seq = 0) :
    (abandon s).buf = s.buf ∧ (abandon s).draws = s.draws := by
  by_cases hq : s.seq = .idle
  · rw [abandon_idle hq]
    exact ⟨rfl, rfl⟩
  · rw [abandon_running hq, hz]
    exact ⟨rfl, rfl⟩

theorem raiseFault_eq {s : State} (code : FaultCode) (info : Word) (hf : s.status.fault = false)
    (hb : s.seq = .idle → s.status.busy = false) :
    raiseFault code info s =
      { s with
        status := { s.status with busy := false }
        seq := .idle
        buf := (abandon s).buf
        draws := (abandon s).draws }.faulted code info := by
  have hfault := congrArg (State.faulted · code info) (abandon_frame hb)
  exact (if_neg (by simp [hf])).trans hfault

/-- Settles O30: a fault entry abandons the running command and records itself. -/
theorem faultEntry : Obligations.FaultEntry := by
  refine fun s code info => ⟨raiseFault_again code info, raiseFault_idle code info, fun hf hq => ?_⟩
  rw [raiseFault_eq code info hf (absurd · hq)]
  exact ⟨rfl, fun hz => (abandon_untouched hz).1, fun _ => abandon_read⟩

/-! ## Host writes -/

theorem step_hostWrite {s : State} {bits off : Nat} {v : Word} {rest : List Event}
    (he : s.env = .hostWrite bits off v :: rest) : step s = hostWrite bits off v { s with env := rest } := step_cons he

/-- A legal write with BUSY = 0 and FAULT = 0 reaches its register. -/
theorem step_legalWrite {s : State} {off : Nat} {r : HostReg} {v : Word} {rest : List Event}
    (hb : s.status.busy = false) (hf : s.status.fault = false) (hr : regAt s.params.maxN off = some r)
    (he : s.env = .hostWrite 32 off v :: rest) : step s = writeHostReg r v { s with env := rest } :=
  (step_hostWrite he).trans (hostWrite_legal v hf ((legalAccess_word _ _).trans hr) hb)

/-- Settles O39: each offset is its register's, and a write there stores the low bits. -/
theorem operandRegisterWrites : Obligations.OperandRegisterWrites := by
  intro s v rest hb hf
  rw [← BitVec.setWidth_eq_extractLsb' (by decide), ← BitVec.setWidth_eq_extractLsb' (by decide)]
  exact ⟨step_legalWrite (r := .opw) hb hf rfl, step_legalWrite (r := .opv) hb hf rfl,
    step_legalWrite (r := .dev) hb hf rfl, step_legalWrite (r := .cnt) hb hf rfl⟩

/-- Settles O40: a faulted block ignores every write, any other ignores one to a read-only register. -/
theorem readOnlyWritesAreIgnored : Obligations.ReadOnlyWritesAreIgnored := by
  intro s off v rest hb hoff he
  cases hf : s.status.fault with
  | true => exact (step_hostWrite he).trans (hostWrite_faulted _ _ _ hf)
  | false =>
    simp only [List.mem_cons, List.not_mem_nil, or_false] at hoff
    obtain rfl | rfl | rfl | rfl | rfl := hoff
    · exact step_legalWrite (r := .status) hb hf rfl he
    · exact step_legalWrite (r := .result) hb hf rfl he
    · exact step_legalWrite (r := .handle) hb hf rfl he
    · exact step_legalWrite (r := .finfo) hb hf rfl he
    · exact step_legalWrite (r := .params) hb hf rfl he

/-- Settles O41: the offset is that of BUF[i], and a write of the memory changes one byte. -/
theorem bufWritesOneByte : Obligations.BufWritesOneByte := by
  intro s i v rest hb hf hi hw he
  rw [← BitVec.setWidth_eq_extractLsb' (by decide)]
  exact ⟨_, step_legalWrite hb hf (regAt_buf hi) he, rfl, Memory.write_wf hw .., Memory.read_write_same ..,
    fun a ha => Memory.read_write_other _ _ ha⟩

/-! ## Accesses that fault -/

/-- R51's legal accesses. -/
theorem legalAccess_eq_none {maxN bits off : Nat}
    (h : ¬(bits = 32 ∧ off % 4 = 0 ∧ (off ≤ 0x24 ∨ (0x100 ≤ off ∧ off < 0x100 + 4 * maxN)))) :
    legalAccess maxN bits off = none := by
  unfold legalAccess
  split
  · exact regAt_none.mpr fun hl => h ⟨‹_›, hl⟩
  · rfl

theorem hostRead_illegal {s : State} {bits off : Nat} (h : legalAccess s.params.maxN bits off = none) :
    hostRead bits off s =
      raiseFault .hostAccess (accessInfo false off) (giveHost (Config.freeWord s.draws) s) := by
  simp only [hostRead, h]

/-- Settles O32: a legal access, so BUSY_WRITE; the entry abandons the running command. -/
theorem writeWhileBusyRaisesBusyWrite : Obligations.WriteWhileBusyRaisesBusyWrite := by
  intro s off v rest hb hf hq hl hp he
  obtain ⟨r, hr⟩ := regAt_isSome_of_legal hl
  have hinfo : accessInfo true off = BitVec.ofNat 32 (2 ^ 31 + off) := by
    rw [accessInfo_eq, if_pos rfl, legal_offset_small hp.2 hr]
  have hstep := (step_hostWrite he).trans (hostWrite_busy v hf ((legalAccess_word _ _).trans hr) hb)
  rw [hinfo, raiseFault_eq _ _ (by exact hf) (by exact (absurd · hq))] at hstep
  exact ⟨_, hstep, rfl, abandon_untouched (s := { s with env := rest }),
    fun _ => abandon_read (s := { s with env := rest })⟩

/-- Settles O33: an illegal access, so HOST_ACCESS; the entry abandons what runs. -/
theorem illegalAccessRaisesHostAccess : Obligations.IllegalAccessRaisesHostAccess := by
  intro s bits off v rest hf hb hl
  have hnone := legalAccess_eq_none hl
  refine ⟨fun he => ?_, fun he => ?_⟩
  · have hstep := (step_hostWrite he).trans (hostWrite_illegal v hf hnone)
    rw [accessInfo_eq, if_pos rfl, raiseFault_eq _ _ (by exact hf) (by exact hb)] at hstep
    exact ⟨_, hstep, rfl, fun hz => (abandon_untouched (s := { s with env := rest }) hz).1,
      fun _ => abandon_read (s := { s with env := rest })⟩
  · have hstep := (step_cons he).trans (congrArg Host.Outcome.next (hostRead_illegal hnone))
    rw [accessInfo_eq, if_neg (by decide), Nat.zero_add, raiseFault_eq _ _ (by exact hf) (by exact hb)] at hstep
    exact ⟨_, hstep, rfl, fun hz => (abandon_untouched (s := giveHost _ { s with env := rest }) hz).1,
      fun _ => abandon_read (s := giveHost _ { s with env := rest })⟩

/-! ## Host reads -/

/-- BUF[i] reads as a byte, the one written there if one was (V1). -/
theorem readHostReg_buf {s : State} (i : Nat) (hb : s.status.busy = false) :
    ∃ b : Byte, readHostReg (.buf i) s = b.setWidth 32 ∧ ∀ u, s.buf.read i = some u → b = u := by
  refine ⟨bufByte s.buf i s.draws, by simp [readHostReg, hb], fun u hu => by simp [bufByte, hu]⟩

/-- Settles O42: the legal offset names one register, and with BUSY = 0 it reads as its value. -/
theorem hostReadsReturnTheRegisters : Obligations.HostReadsReturnTheRegisters := by
  intro s off rest he hlegal
  obtain ⟨r, hr⟩ := regAt_isSome_of_legal hlegal
  have hread (q : HostReg) (hq : ∀ i, q = .buf i → i < s.params.maxN) (ho : off = q.offset) :
      readHostReg r s = readHostReg q s := by rw [eq_of_regAt_of_offset hr ho hq]
  refine ⟨readHostReg r s, step_legalRead he hr, fun hb => ⟨hread .cmd nofun, fun ho => ?_, fun ho => ?_,
    hread .opw nofun, hread .opv nofun, hread .dev nofun, hread .cnt nofun, hread .handle nofun, hread .finfo nofun,
    fun ho => ?_, fun i ho => ?_⟩⟩
  · have hstatus : readHostReg .status s = statusWord s.status := congrArg statusWord (if_neg (by simp [hb]))
    rw [hread .status nofun ho, hstatus, ← hb]
    exact statusWord_fields s.status
  · exact (hread .result nofun ho).trans (if_neg (by simp [hb]))
  · rw [hread .params nofun ho]
    exact paramsWord_fields s.params
  · have hi : i < s.params.maxN := by omega
    rw [hread (.buf i) (by simpa using hi) ho]
    exact readHostReg_buf i hb

/-! ## Reset -/

/-- Settles O44: reset leaves SEQ idle, so a later answer finds no request outstanding. -/
theorem resetEventSetsEveryRegister : Obligations.ResetEventSetsEveryRegister := by
  refine fun s a rest => ⟨step_cons, fun he => ⟨_, step_cons he, ?_⟩, step_cons⟩
  exact (step_cons (e := .answer a) rfl).trans (congrArg Host.Outcome.next (takeAnswer_idle a rfl))

/-- Settles O45: field by field. -/
theorem resetState : Obligations.ResetState := fun _ =>
  ⟨⟨rfl, rfl, rfl⟩, rfl, rfl, rfl, rfl, rfl, rfl, rfl, rfl, rfl, rfl, rfl, rfl, fun _ => rfl, rfl⟩

end Sys2Proof.Machine
end

section
/-! What a step can change (20_memory.md R57 to R60, 41_register_access.md R130, R131, R155, 60_exceptions.md R211): the frames of the shared operations, then the rules over every step. -/

namespace Sys2Proof.Machine

/-! ## What only the HOST writes -/

/-- The parameters and the operand registers OPW, OPV, DEV and CNT. -/
def State.hostRegs (s : State) : Params × Half × Half × Half × Byte := (s.params, s.opw, s.opv, s.dev, s.cnt)

@[simp] theorem raiseFault_hostRegs (code : FaultCode) (info : Word) (s : State) :
    (raiseFault code info s).hostRegs = s.hostRegs := by rw [raiseFault_frame]; rfl

@[simp] theorem start_hostRegs (q : Proc) (o : Latched) (s : State) : (start q o s).hostRegs = s.hostRegs := by
  obtain ⟨bus, h⟩ := start_eq q o s
  rw [h]
  rfl

@[simp] theorem applyFinish_hostRegs (f : Finish) (s : State) : (applyFinish f s).hostRegs = s.hostRegs := by
  rw [applyFinish_eq]
  rfl

@[simp] theorem advance_hostRegs (q : Proc) (s : State) : (advance q s).hostRegs = s.hostRegs := by
  cases q with
  | request r next => rfl
  | finish f => exact applyFinish_hostRegs f s

theorem exec_hostRegs {i : Instr} {s t : State} (h : exec i s = .next t) : t.hostRegs = s.hostRegs := by
  obtain ⟨code, -, rfl⟩ | ⟨-, -, r, rfl⟩ | ⟨-, -, -, rfl⟩ | ⟨-, -, -, rfl⟩ | ⟨-, -, -, _, _, q, -, rfl⟩ := exec_cases h
  · exact raiseFault_hostRegs ..
  · rfl
  · rfl
  · exact start_hostRegs ..
  · exact start_hostRegs ..

/-- A step that changes an operand register is a host write to it, or reset; no step changes the parameters. -/
theorem step_hostRegs {s t : State} (h : step s = .next t) :
    t.hostRegs = s.hostRegs ∨ (s.env.head? = some .reset ∧ t.params = s.params) ∨
      (∃ v, s.env.head? = some (.hostWrite 32 0x00C v) ∧ t = { s.taken with opw := v.setWidth 16 }) ∨
      (∃ v, s.env.head? = some (.hostWrite 32 0x010 v) ∧ t = { s.taken with opv := v.setWidth 16 }) ∨
      (∃ v, s.env.head? = some (.hostWrite 32 0x014 v) ∧ t = { s.taken with dev := v.setWidth 16 }) ∨
      (∃ v, s.env.head? = some (.hostWrite 32 0x018 v) ∧ t = { s.taken with cnt := v.setWidth 8 }) := by
  cases step_cases h with
  | accessFault | illegalWord => exact .inl (raiseFault_hostRegs ..)
  | command c i t he hb hf hd ht => exact .inl (exec_hostRegs (s := { s.taken with cmd := c }) ht)
  | answer => exact .inl (advance_hostRegs ..)
  | turn => exact .inl (applyFinish_hostRegs ..)
  | ignored | read | faultedRead | buf => exact .inl rfl
  | reset he => exact .inr (.inl ⟨he, rfl⟩)
  | opw v he => exact .inr (.inr (.inl ⟨v, he, rfl⟩))
  | opv v he => exact .inr (.inr (.inr (.inl ⟨v, he, rfl⟩)))
  | dev v he => exact .inr (.inr (.inr (.inr (.inl ⟨v, he, rfl⟩))))
  | cnt v he => exact .inr (.inr (.inr (.inr (.inr ⟨v, he, rfl⟩))))

/-- Settles O48: by `step_hostRegs`; reset keeps the parameters too. -/
theorem parametersAreConstant : Obligations.ParametersAreConstant := by
  intro s t h
  obtain hkeep | ⟨-, hp⟩ | ⟨v, -, rfl⟩ | ⟨v, -, rfl⟩ | ⟨v, -, rfl⟩ | ⟨v, -, rfl⟩ := step_hostRegs h
  · exact (Prod.mk.inj hkeep).1
  · exact hp
  all_goals rfl

/-! ## What writes BUF -/

/-- An RDREGS runs. -/
abbrev State.RunsRdregs (s : State) : Prop :=
  ∃ c o replies reg, s.seq = .running c o replies ∧ decode c = .ok (.rdregs reg)

theorem raiseFault_buf (code : FaultCode) (info : Word) (s : State) :
    (raiseFault code info s).buf = s.buf ∨ s.RunsRdregs := by
  cases hf : s.status.fault with
  | true => exact .inl (by rw [raiseFault_again code info hf])
  | false =>
    by_cases hq : s.seq = .idle
    · exact .inl (by rw [raiseFault_idle code info hf hq])
    · obtain hz | ⟨c, o, replies, reg, hs, hd, -⟩ := touchedBytes_cases s.seq
      · exact .inl (by rw [raiseFault_running code info hf hq, hz]; rfl)
      · exact .inr ⟨c, o, replies, reg, hs, hd⟩

theorem start_buf (q : Proc) (o : Latched) (s : State) : (start q o s).buf = s.buf := by
  obtain ⟨bus, h⟩ := start_eq q o s
  rw [h]

theorem exec_buf {i : Instr} {s t : State} (h : exec i s = .next t) : t.buf = s.buf ∨ s.RunsRdregs := by
  obtain ⟨code, -, rfl⟩ | ⟨-, -, r, rfl⟩ | ⟨-, -, -, rfl⟩ | ⟨-, -, -, rfl⟩ | ⟨-, -, -, _, _, q, -, rfl⟩ := exec_cases h
  · exact raiseFault_buf ..
  · exact .inl rfl
  · exact .inl rfl
  · exact .inl (start_buf ..)
  · exact .inl (start_buf ..)

theorem Proc.Ends.imp {P Q : Finish → Prop} (h : ∀ f, P f → Q f) : ∀ {p : Proc}, p.Ends P → p.Ends Q
  | .request _ _, hp => fun a => (hp a).imp h
  | .finish f, hp => h f hp

/-- INIT leaves BUF as it is. -/
theorem initProc_keepsBuf (ps : Params) (o : Latched) : (initProc ps o).Ends fun f => f.buf = .keep := fun _ =>
  .ite ((finishBool_plain false).imp fun _ => And.left) rfl

/-- Every command but RDREGS leaves BUF as it is, however it ends. -/
theorem procOf_keepsBuf {i : Instr} {ps : Params} {o : Latched} {q : Proc} (h : procOf i ps o = some q)
    (hr : ∀ reg, i ≠ .rdregs reg) : q.Ends fun f => f.buf = .keep := by
  by_cases hi : i = .init
  · subst hi
    cases h
    exact initProc_keepsBuf ps o
  · exact (procOf_plain h hi hr).imp fun _ => And.left

theorem applyFinish_buf {f : Finish} {s : State} (h : f.buf = .keep) : (applyFinish f s).buf = s.buf := by
  rw [applyFinish_eq, h]
  rfl

theorem advance_buf {q : Proc} {s : State} (h : q.Ends fun f => f.buf = .keep) : (advance q s).buf = s.buf := by
  cases q with
  | request r next => rfl
  | finish f => exact applyFinish_buf h

/-- The end of a command other than RDREGS, from any state it can be reached in. -/
theorem pending_keepsBuf {s : State} {p : Proc} (h : pending s = some p) :
    p.Ends (fun f => f.buf = .keep) ∨ s.RunsRdregs := by
  obtain ⟨c, o, replies, i, q, hs, hd, hq, rfl⟩ := pending_some h
  by_cases hr : ∃ reg, i = .rdregs reg
  · obtain ⟨reg, rfl⟩ := hr
    exact .inr ⟨c, o, replies, reg, hs, hd⟩
  · exact .inl ((procOf_keepsBuf hq fun reg h => hr ⟨reg, h⟩).after replies)

theorem step_buf {s t : State} (h : step s = .next t) (hn : s.env.head? ≠ some .reset) :
    t.buf = s.buf ∨ (∃ k v, k < s.params.maxN ∧ s.env.head? = some (.hostWrite 32 (0x100 + 4 * k) v)) ∨
      s.RunsRdregs := by
  cases step_cases h with
  | accessFault | illegalWord => exact (raiseFault_buf ..).imp_right .inr
  | command c i t he hb hf hd ht => exact (exec_buf (s := { s.taken with cmd := c }) ht).imp_right .inr
  | answer a r next he hp =>
    obtain hends | hrun := pending_keepsBuf hp
    · exact .inl (advance_buf (hends _))
    · exact .inr (.inr hrun)
  | turn f he hp =>
    obtain hends | hrun := pending_keepsBuf hp
    · exact .inl (applyFinish_buf hends)
    · exact .inr (.inr hrun)
  | buf k v hk he => exact .inr (.inl ⟨k, v, hk, he⟩)
  | reset he => exact absurd he hn
  | ignored | read | faultedRead | opw | opv | dev | cnt => exact .inl rfl

/-- Settles O49: `step_hostRegs` for the operand registers, `step_buf` for BUF. -/
theorem onlyTheHostWritesOperands : Obligations.OnlyTheHostWritesOperands := by
  intro s t h hn
  have hbuf : t.buf ≠ s.buf → _ := (step_buf h hn).resolve_left
  obtain hkeep | ⟨hr, -⟩ | ⟨v, he, rfl⟩ | ⟨v, he, rfl⟩ | ⟨v, he, rfl⟩ | ⟨v, he, rfl⟩ := step_hostRegs h
  · simp only [State.hostRegs, Prod.mk.injEq] at hkeep
    obtain ⟨-, hopw, hopv, hdev, hcnt⟩ := hkeep
    exact ⟨absurd hopw, absurd hopv, absurd hdev, absurd hcnt, hbuf⟩
  · exact absurd hr hn
  · exact ⟨fun _ => ⟨v, he⟩, absurd rfl, absurd rfl, absurd rfl, hbuf⟩
  · exact ⟨absurd rfl, fun _ => ⟨v, he⟩, absurd rfl, absurd rfl, hbuf⟩
  · exact ⟨absurd rfl, absurd rfl, fun _ => ⟨v, he⟩, absurd rfl, hbuf⟩
  · exact ⟨absurd rfl, absurd rfl, absurd rfl, fun _ => ⟨v, he⟩, hbuf⟩

/-! ## Requests -/

@[simp] theorem raiseFault_bus (code : FaultCode) (info : Word) (s : State) : (raiseFault code info s).bus = s.bus := by
  rw [raiseFault_frame]

@[simp] theorem applyFinish_bus (f : Finish) (s : State) : (applyFinish f s).bus = s.bus := by rw [applyFinish_eq]

/-- `t` sends nothing that `s` had not sent, or one request more, whose answer it then waits for. -/
abbrev State.SendsAtMostOne (s t : State) : Prop :=
  t.bus = s.bus ∨ ∃ r, t.bus = s.bus ++ [r] ∧ t.status.busy = true ∧ outstanding t = some r

theorem start_sends {s : State} {i : Instr} {o : Latched} {q : Proc} (hd : decode s.cmd = .ok i)
    (hp : procOf i s.params o = some q) : s.SendsAtMostOne (start q o s) := by
  have hpend := pending_start hd hp
  cases q with
  | request r next => exact .inr ⟨r, rfl, rfl, outstanding_of_pending hpend⟩
  | finish f => exact .inl rfl

theorem exec_sends {i : Instr} {s t : State} (hd : decode s.cmd = .ok i) (h : exec i s = .next t) :
    s.SendsAtMostOne t := by
  obtain ⟨code, -, rfl⟩ | ⟨-, -, r, rfl⟩ | ⟨-, -, -, rfl⟩ | ⟨rfl, -, -, rfl⟩ | ⟨-, -, -, payload, d, q, hp, rfl⟩ :=
    exec_cases h
  · exact .inl (raiseFault_bus ..)
  · exact .inl rfl
  · exact .inl rfl
  · exact start_sends (s := s.setStatus { s.status with initd := true }) hd rfl
  · exact start_sends (s := { s with draws := d }) hd hp

/-- Settles O50: a request goes out only as a command starts or as it takes an answer. -/
theorem oneRequestAtATime : Obligations.OneRequestAtATime := by
  intro s t hi h
  cases step_cases h with
  | accessFault | illegalWord => exact .inl (raiseFault_bus ..)
  | command c i t he hb hf hd ht => exact exec_sends (s := { s.taken with cmd := c }) hd ht
  | answer a r next he hp =>
    cases hn : next (delivered r s.draws a) with
    | finish f => exact .inl (applyFinish_bus ..)
    | request r' next' =>
      obtain ⟨c, o, replies, i, q, hs, -⟩ := pending_some hp
      exact .inr ⟨r', rfl, hi.running_busy hs, outstanding_of_pending (pending_answered hp hn)⟩
  | turn => exact .inl (applyFinish_bus ..)
  | ignored | read | faultedRead | opw | opv | dev | cnt | buf | reset => exact .inl rfl

/-! ## RESULT -/

@[simp] theorem raiseFault_result (code : FaultCode) (info : Word) (s : State) :
    (raiseFault code info s).result = s.result := by rw [raiseFault_frame]

theorem start_result (q : Proc) (o : Latched) (s : State) : (start q o s).result = s.result := by
  obtain ⟨bus, h⟩ := start_eq q o s
  rw [h]

/-- The end of a command leaves BUSY = 0 and FAULT as it is. -/
theorem applyFinish_status (f : Finish) (s : State) :
    (applyFinish f s).status = { s.status with ok := f.ok, busy := false } := by rw [applyFinish_eq]

/-- Of the accepting steps only those of pure commands, GETGLOBAL and INIT with I2C disabled write RESULT. -/
theorem exec_result {i : Instr} {s t : State} (hb : s.status.busy = false) (hf : s.status.fault = false)
    (h : exec i s = .next t) :
    t.result = s.result ∨ (¬isBusCommand i ∧ t.status.busy = false ∧ t.status.fault = false) := by
  obtain ⟨code, -, rfl⟩ | ⟨hn, -, r, rfl⟩ | ⟨rfl, -, -, rfl⟩ | ⟨-, -, -, rfl⟩ | ⟨-, -, -, payload, d, q, -, rfl⟩ :=
    exec_cases h
  · exact .inl (raiseFault_result ..)
  · exact .inr ⟨hn, hb, hf⟩
  · exact .inr ⟨by simp [isBusCommand, commandClass], rfl, hf⟩
  · exact .inl (start_result ..)
  · exact .inl (start_result ..)

/-- Settles O51: RESULT is written as a command completes, at once or at its end. -/
theorem resultChangesOnlyAtCompletion : Obligations.ResultChangesOnlyAtCompletion := by
  intro s t hi h hne hn
  have hrun {p : Proc} (hp : pending s = some p) : s.status.fault = false ∧ s.status.busy = true := by
    obtain ⟨c, o, replies, i, q, hs, -⟩ := pending_some hp
    exact ⟨hi.running_fault hs, hi.running_busy hs⟩
  cases step_cases h with
  | accessFault | illegalWord => exact absurd (raiseFault_result ..) hne
  | command c i t he hb hf hd ht =>
    obtain hkeep | ⟨hbus, hb', hf'⟩ := exec_result (s := { s.taken with cmd := c }) hb hf ht
    · exact absurd hkeep hne
    · exact ⟨hb', hf', .inl ⟨c, i, he, hd, hbus⟩⟩
  | answer a r next he hp =>
    cases hn : next (delivered r s.draws a) with
    | request r' next' => rw [hn] at hne; exact absurd rfl hne
    | finish f =>
      obtain ⟨hf, hb⟩ := hrun hp
      rw [advance_finish, applyFinish_status]
      exact ⟨rfl, hf, .inr hb⟩
  | turn f he hp =>
    obtain ⟨hf, hb⟩ := hrun hp
    rw [applyFinish_status]
    exact ⟨rfl, hf, .inr hb⟩
  | reset he => exact absurd he hn
  | ignored | read | faultedRead | opw | opv | dev | cnt | buf => exact absurd rfl hne

/-! ## The running command -/

/-- Settles O52: with a command running a step that does not end it keeps SEQ, or adds the answer it takes. -/
theorem runningCommandIsFixed : Obligations.RunningCommandIsFixed := by
  intro s t c o replies hi hs h
  have hbusy := hi.running_busy hs
  have hfault := hi.running_fault hs
  cases step_cases h with
  | ignored | read => exact .inr ⟨rfl, .inl hs⟩
  | accessFault code info v d hc =>
    rw [raiseFault_running code info (by exact hfault) (by simp [hs])]
    exact .inl rfl
  | faultedRead v hf => simp [hfault] at hf
  | answer a r next he hp =>
    cases next (delivered r s.draws a) with
    | request r' next' => exact .inr ⟨rfl, .inr ⟨_, congrArg (Seq.received · _) hs⟩⟩
    | finish f => exact .inl (by rw [advance_finish, applyFinish_eq])
  | turn f => exact .inl (by rw [applyFinish_eq])
  | reset => exact .inl rfl
  | illegalWord _ _ hb | command _ _ _ _ hb | opw _ _ hb | opv _ _ hb | dev _ _ hb | cnt _ _ hb | buf _ _ _ _ hb =>
    simp [hbusy] at hb

end Sys2Proof.Machine
end

section
/-! How a running command goes on (60_exceptions.md R211, 70_reset_and_hazards.md R226, R228): it waits for its answer, ends within three answers, and a value command's RESULT agrees with OK. -/

namespace Sys2Proof.Machine

/-! ## Waiting (R211) -/

/-- Settles O53: none of these events reaches SEQ, the status or the requests sent. -/
theorem withoutAnAnswerTheCommandWaits : Obligations.WithoutAnAnswerTheCommandWaits := by
  intro s t r hb ho h hev
  obtain he | he | ⟨a, he⟩ | ⟨off, he, hlegal⟩ := hev
  · rw [step_nil he, blockTurn_request (by simp [ho])] at h
    cases h
    exact ⟨hb, rfl, ho, rfl⟩
  all_goals obtain ⟨rest, he⟩ := List.head?_eq_some_iff.mp he
  · rw [step_cons he] at h
    have hturn : blockTurn { s with env := rest } = { s with env := rest } :=
      blockTurn_request (by rw [show outstanding { s with env := rest } = some r from ho]; simp)
    cases h.symm.trans (congrArg Host.Outcome.next hturn)
    exact ⟨hb, rfl, ho, rfl⟩
  · cases h.symm.trans (step_cons he)
    exact ⟨hb, rfl, ho, rfl⟩
  · obtain ⟨q, hq⟩ := regAt_isSome_of_legal hlegal
    cases h.symm.trans (step_legalRead he hq)
    exact ⟨hb, rfl, ho, rfl⟩

/-! ## RESULT = -1 (R131, R226) -/

/-- The end of a value command: RESULT is -1 exactly when it failed. -/
abbrev Finish.Sentinel (f : Finish) : Prop := f.result = minusOne ↔ f.ok = false

theorem zext32_ne_minusOne {n : Nat} (h : n < 2 ^ 16) : zext32 n ≠ minusOne := by
  intro he
  have := congrArg BitVec.toNat he
  simp only [zext32, minusOne, BitVec.toNat_ofNat] at this
  omega

theorem finishValue_sentinel {v : Option Nat} (h : ∀ n, v = some n → n < 2 ^ 16) :
    (finishValue v).Ends Finish.Sentinel := by
  cases v with
  | none => exact iff_of_true rfl rfl
  | some n => exact iff_of_false (zext32_ne_minusOne (h n rfl)) Bool.noConfusion

/-- What a read command makes of the value read: a value no greater. -/
theorem finishValue_map_sentinel {w : Width} {g : Nat → Nat} (hg : ∀ n, g n ≤ n) (v : Option Nat)
    (hv : ∀ n, v = some n → n < 2 ^ w.bits) : (finishValue (v.map g)).Ends Finish.Sentinel := by
  refine finishValue_sentinel fun n hn => ?_
  obtain ⟨m, hm, rfl⟩ := Option.map_eq_some_iff.mp hn
  calc g m ≤ m := hg m
    _ < 2 ^ w.bits := hv m hm
    _ ≤ 2 ^ 16 := Nat.pow_le_pow_right (by decide) (width_bits_le w)

section
variable {w : Width} {o : Latched} {next : Option Nat → Proc}
  (h : ∀ v, (∀ n, v = some n → n < 2 ^ w.bits) → (next v).Ends Finish.Sentinel)
include h

/-- A read delivers a word of its width, whatever the answer is. -/
theorem rawRead_sentinel (stop : Bool) : (rawRead w o stop next).Ends Finish.Sentinel := by
  refine fun a => h _ fun n hn => ?_
  obtain ⟨d, -, rfl⟩ := Option.map_eq_some_iff.mp hn
  exact bytesWord_lt w d

theorem readReg_sentinel (reg : Byte) : (readReg w o reg next).Ends Finish.Sentinel := fun _ =>
  .ite (rawRead_sentinel h true) (h none nofun)

end

theorem getBits_le (bs len x : Nat) : getBits x bs len ≤ x := Nat.and_le_left.trans (Nat.shiftRight_le x _)

theorem getBit_le (p x : Nat) : getBit x p ≤ x := Nat.and_le_left.trans (Nat.shiftRight_le x p)

theorem readBit8_le (normalize : Bool) (p x : Nat) : readBit8 normalize x p ≤ x := by
  cases normalize with
  | true => exact getBit_le p x
  | false => exact Nat.and_le_left

/-- Every value command (R131). -/
theorem procOf_sentinel {i : Instr} {ps : Params} {o : Latched} {q : Proc} (h : procOf i ps o = some q)
    (hi : commandClass i = .value) : q.Ends Finish.Sentinel := by
  cases i <;> simp only [commandClass, reduceCtorEq] at hi <;> cases h
  case rdreg8 | rdreg16 =>
    refine readReg_sentinel (fun v hv => ?_) _
    simpa using finishValue_map_sentinel (g := id) (fun _ => le_rfl) v hv
  case rdregbit8 => exact readReg_sentinel (finishValue_map_sentinel (readBit8_le _ _)) _
  case rdregbit16 => exact readReg_sentinel (finishValue_map_sentinel (getBit_le _)) _
  case rdregbf8 | rdregbf16 => exact readReg_sentinel (finishValue_map_sentinel (getBits_le _ _)) _
  case rdbits8 | rdbits16 => exact rawRead_sentinel (finishValue_map_sentinel (getBits_le _ _)) _

/-- Settles O54: the step that leaves SEQ idle is the end of the command. -/
theorem sentinelAgreesWithOk : Obligations.SentinelAgreesWithOk := by
  intro s t c o replies i a hs hd hi he h hidle
  obtain ⟨rest, he⟩ := List.head?_eq_some_iff.mp he
  cases ho : outstanding s with
  | none =>
    cases h.symm.trans ((step_cons he).trans (congrArg Host.Outcome.next (takeAnswer_none a ho)))
    cases hs.symm.trans hidle
  | some r =>
    obtain ⟨next, hp⟩ := outstanding_some ho
    obtain ⟨q, hq, hr⟩ := Option.map_eq_some_iff.mp ((pending_running hs hd).symm.trans hp)
    have hends : (Proc.request r next).Ends Finish.Sentinel := hr ▸ (procOf_sentinel hq hi).after replies
    have hend := hends (delivered r s.draws a)
    have hstep := step_answer he hp
    cases hn : next (delivered r s.draws a) with
    | request r' next' =>
      rw [hn, hs] at hstep
      cases h.symm.trans hstep
      cases hidle
    | finish f =>
      rw [hn] at hstep hend
      rw [advance_finish, applyFinish_eq] at hstep
      cases h.symm.trans hstep
      exact hend

/-! ## Completion (R228) -/

/-- A command that ends within as many answers as are to come ends by the last of them, and sets no fault. -/
theorem steps_within {rest : List Event} (as : List Answer) :
    ∀ {s : State} {r : Request} {next : Answer → Proc}, pending s = some (.request r next) →
      (Proc.request r next).Within as.length → s.env = as.map .answer ++ rest → s.status.fault = false →
      ∃ k t, k ≤ as.length ∧ steps k s = .next t ∧ t.status.busy = false ∧ t.status.fault = false := by
  induction as with
  | nil => intro s r next _ hw; cases hw
  | cons a as ih =>
    intro s r next hp hw he hf
    have hstep := step_answer he hp
    have hw := hw (delivered r s.draws a)
    cases hn : next (delivered r s.draws a) with
    | finish f =>
      rw [hn, advance_finish] at hstep
      refine ⟨1, _, by simp, (steps_one s).trans hstep, ?_⟩
      rw [applyFinish_status]
      exact ⟨rfl, hf⟩
    | request r' next' =>
      rw [hn] at hstep hw
      obtain ⟨k, t, hk, ht, hdone⟩ := ih (pending_answered (s := { s with env := .answer a :: _ }) hp hn) hw rfl hf
      exact ⟨k + 1, t, Nat.succ_le_succ hk, (steps_succ k hstep).trans ht, hdone⟩

/-- Settles O55: every command ends within three answers (`procOf_within`), whichever it has had already. -/
theorem answeredCommandCompletes : Obligations.AnsweredCommandCompletes := by
  intro s a b c rest hi hb ho he
  obtain ⟨r, ho⟩ := Option.ne_none_iff_exists'.mp ho
  obtain ⟨next, hp⟩ := outstanding_some ho
  obtain ⟨_, _, replies, _, q, hs, -, hq, hr⟩ := pending_some hp
  have hw : (Proc.request r next).Within 3 := hr ▸ (procOf_within hq).after replies
  exact steps_within [a, b, c] hp hw he (hi.running_fault hs)

end Sys2Proof.Machine
end

section
/-! A field written and read back (41_register_access.md R154): WRREGBF and RDREGBF at either width, each from the HOST's write of CMD to its end. -/

namespace Sys2Proof.Machine

section
variable (w : Width) (reg : Byte) (bs : BitVec 4) (len : BitVec 5)

/-- WRREGBF of a width. -/
def wrregbf : Instr :=
  match w with
  | .w8 => .wrregbf8 reg bs len
  | .w16 => .wrregbf16 reg bs len

/-- RDREGBF of a width. -/
def rdregbf : Instr :=
  match w with
  | .w8 => .rdregbf8 reg bs len
  | .w16 => .rdregbf16 reg bs len

theorem procOf_wrregbf (ps : Params) (o : Latched) : procOf (wrregbf w reg bs len) ps o =
    some (modifyReg w o reg fun v => setBits w v bs.toNat len.toNat (operandWord w o.opv)) := by cases w <;> rfl

theorem procOf_rdregbf (ps : Params) (o : Latched) : procOf (rdregbf w reg bs len) ps o =
    some (readReg w o reg fun r => finishValue (r.map fun v => getBits v bs.toNat len.toNat)) := by cases w <;> rfl

variable {s : State} {w bs len} (hh : s.handle ≠ 0#32) (hb : bs.toNat < w.bits) (hl : len.toNat ≤ bs.toNat + 1)
include hh hb hl

theorem exec_wrregbf : exec (wrregbf w reg bs len) s =
    .next (s.started (latch s) [.busWrite s.handle s.dev [reg] false]) := by
  cases w <;> exact startField_handle hh _ hb hl

theorem exec_rdregbf : exec (rdregbf w reg bs len) s =
    .next (s.started (latch s) [.busWrite s.handle s.dev [reg] false]) := by
  cases w <;> exact startField_handle hh _ hb hl

end

/-- A command word written to CMD of a ready block: its accepting step, then `n` steps. -/
theorem steps_command {s t : State} {c : Word} {i : Instr} {rest : List Event} (n : Nat) (hs : s.Ready)
    (hd : decode c = .ok i) (he : s.env = .hostWrite 32 0x000 c :: rest)
    (hx : exec i { s with env := rest, cmd := c } = .next t) : steps (n + 1) s = steps n t :=
  steps_succ n ((stepRunsTheDecodedCommand s c i rest hs he hd).trans hx)

section
variable {w : Width} {s : State} {c : Word} {reg : Byte} {data : List Byte} {bs : BitVec 4} {len : BitVec 5}
  {rest : List Event} (hs : s.Ready) (hh : s.handle ≠ 0#32) (hb : bs.toNat < w.bits) (hl : len.toNat ≤ bs.toNat + 1)
  (hdata : data.length = w.bytes)
include hs hh hb hl hdata

/-- WRREGBF from the write of CMD to its end. -/
theorem steps_wrregbf (hd : decode c = .ok (wrregbf w reg bs len))
    (he : s.env = .hostWrite 32 0x000 c :: .answer .done :: .answer (.withData data) :: .answer .done :: rest) :
    steps 4 s = .next (({ s with cmd := c }.requested rest
      [.busWrite s.handle s.dev [reg] false, .busRead s.handle s.dev w.bytes true,
        .busWrite s.handle s.dev
          (reg :: wordBytes w (setBits w (bytesWord w data) bs.toNat len.toNat (operandWord w s.opv))) true]).completed
        true 1#32) := by
  rw [steps_command 3 hs hd he (exec_wrregbf reg (by exact hh) hb hl)]
  exact steps_modifyReg (s := { s with env := _, cmd := c }) hd (procOf_wrregbf w reg bs len _ _) hdata rfl

/-- RDREGBF from the write of CMD to its end. -/
theorem steps_rdregbf (hd : decode c = .ok (rdregbf w reg bs len))
    (he : s.env = .hostWrite 32 0x000 c :: .answer .done :: .answer (.withData data) :: rest) :
    steps 3 s = .next (({ s with cmd := c }.requested rest
      [.busWrite s.handle s.dev [reg] false, .busRead s.handle s.dev w.bytes true]).completed true
        (zext32 (getBits (bytesWord w data) bs.toNat len.toNat))) := by
  rw [steps_command 2 hs hd he (exec_rdregbf reg (by exact hh) hb hl)]
  exact steps_readReg (s := { s with env := _, cmd := c }) hd (procOf_rdregbf w reg bs len _ _) hdata rfl rfl

end

/-- A word sent on the bus and received again. -/
theorem bytesWord_wordBytes (w : Width) {n : Nat} (h : n < 2 ^ w.bits) : bytesWord w (wordBytes w n) = n := by
  cases w with
  | w8 =>
    rw [wordBytes, bytesWord_byte, lowByte, BitVec.toNat_ofNat]
    exact Nat.mod_eq_of_lt h
  | w16 =>
    apply Nat.eq_of_testBit_eq
    intro q
    rw [wordBytes, bytesWord_word_bit]
    by_cases hq : q < 16
    · exact highByte_append_lowByte_bit n hq
    · rw [testBit_of_ge h (show 16 ≤ q by omega), BitVec.getLsbD_of_ge _ _ (by omega)]

theorem wordBytes_length (w : Width) (n : Nat) : (wordBytes w n).length = w.bytes := by cases w <;> rfl

/-- The field read back is the low bits of OPV (R111 law 3). -/
theorem getBits_setBits_operandWord (w : Width) {x bs len : Nat} (v : Half) (hx : x < 2 ^ w.bits) (hb : bs < w.bits)
    (hl : len ≤ bs + 1) :
    (zext32 (getBits (setBits w x bs len (operandWord w v)) bs len)).toNat = v.toNat % 2 ^ len := by
  have hlen : len ≤ w.bits := by omega
  have hlt : v.toNat % 2 ^ len < 2 ^ 32 := calc
    v.toNat % 2 ^ len < 2 ^ len := Nat.mod_lt _ (by positivity)
    _ ≤ 2 ^ 32 := Nat.pow_le_pow_right (by decide) (by have := width_bits_le w; omega)
  rw [getBits_setBits w _ hx hb hl, operandWord, Nat.mod_mod_of_dvd _ (pow_dvd_pow 2 hlen), zext32,
    BitVec.toNat_ofNat, Nat.mod_eq_of_lt hlt]

/-- Settles O25: the bytes written carry the register with the field replaced, and the field read back of that is OPV's. -/
theorem fieldWriteThenReadRoundTrip : Obligations.FieldWriteThenReadRoundTrip := by
  intro w s t reg old sent bs len rest hs hh hb hl hold he h hlast
  have henv : s.env = .hostWrite 32 0x000 (encode (wrregbf w reg bs len)) :: .answer .done :: .answer (.withData old) ::
      .answer .done :: .hostWrite 32 0x000 (encode (rdregbf w reg bs len)) :: .answer .done ::
      .answer (.withData sent) :: rest := by cases w <;> exact he
  cases h.symm.trans (steps_wrregbf hs hh hb hl hold (decodeEncode _) henv)
  have hsent : sent = wordBytes w (setBits w (bytesWord w old) bs.toNat len.toNat (operandWord w s.opv)) := by
    simpa [State.completed, State.requested, eq_comm] using hlast
  have hx := bytesWord_lt w old
  have hlen : sent.length = w.bytes := hsent ▸ wordBytes_length w _
  refine ⟨_, steps_rdregbf ⟨rfl, hs.fault, rfl⟩ hh hb hl hlen (decodeEncode _) rfl, rfl, rfl, hs.fault, ?_⟩
  rw [hsent, bytesWord_wordBytes w (setBits_lt _ hx hb hl)]
  exact getBits_setBits_operandWord w s.opv hx hb hl

end Sys2Proof.Machine
end

section
/-! The HOST's program (30_encoding.md R84): what its turn does with each operation that this file's statements speak of. -/

namespace Sys2Proof.Machine

theorem hostTurn_assign {y : System} {t : Nat} {e : HostExpr} (h : y.program[y.host.pos]? = some (.assign t e)) :
    hostTurn y = .next ((y.jump (y.host.pos + 1)).assign t (evalExpr y.host.temps e)) := by
  simp only [hostTurn, h]

theorem hostTurn_ifGoto {y : System} {c : HostCond} {l : Nat} (h : y.program[y.host.pos]? = some (.ifGoto c l)) :
    hostTurn y = .next (y.jump (if evalCond y.host.temps c then l else y.host.pos + 1)) := by
  simp only [hostTurn, h]
  split <;> rfl

theorem hostTurn_goto {y : System} {l : Nat} (h : y.program[y.host.pos]? = some (.goto l)) :
    hostTurn y = .next (y.jump l) := by
  simp only [hostTurn, h]

theorem hostTurn_halt {y : System} (h : y.program[y.host.pos]? = some .halt) : hostTurn y = .next y := by
  simp only [hostTurn, h]

/-- `RD` of a mapped register puts its value into the temporary and changes nothing in the block but what it gave the HOST. -/
theorem hostTurn_rd {y : System} {t : Nat} {r : HostReg} (h : y.program[y.host.pos]? = some (.rd t r))
    (hr : regAt y.block.params.maxN r.offset = some r) :
    ∃ v, v = readHostReg r { y.block with env := .hostRead 32 r.offset :: y.block.env } ∧ hostTurn y =
      .next { (y.jump (y.host.pos + 1)).assign t v with
        block := { y.block with hostData := v, draws := y.block.draws + 1 } } := by
  refine ⟨_, rfl, ?_⟩
  have hstep := step_legalRead (s := { y.block with env := .hostRead 32 r.offset :: y.block.env }) rfl hr
  simp only [hostTurn, h, hostAccess, hstep, inSystem]

/-- Settles O56: of the operations only `WR` and `RD` reach the block. -/
theorem hostComputationTouchesNoRegister : Obligations.HostComputationTouchesNoRegister := by
  intro y op hop hwr hrd
  cases op with
  | wr r e => exact absurd rfl (hwr r e)
  | rd t r => exact absurd rfl (hrd t r)
  | assign t e => exact ⟨_, hostTurn_assign hop, rfl, rfl⟩
  | ifGoto c l => exact ⟨_, hostTurn_ifGoto hop, rfl, rfl⟩
  | goto l => exact ⟨_, hostTurn_goto hop, rfl, rfl⟩
  | halt => exact ⟨_, hostTurn_halt hop, rfl, rfl⟩

/-- STATUS as it is read, busy or not: bit 0 is BUSY (R23, R224). -/
theorem readHostReg_status_bit0 (s : State) : (readHostReg .status s).getLsbD 0 = s.status.busy := by
  refine (statusWord_fields _).1.trans ?_
  split <;> rfl

/-- Settles O57: the read of STATUS, then the jump on the bit it put into the temporary. -/
theorem waitEndsWhenNotBusy : Obligations.WaitEndsWhenNotBusy := by
  intro y t hrd hif
  obtain ⟨v, hv, hx⟩ := hostTurn_rd hrd rfl
  have hbit : v.getLsbD 0 = y.block.status.busy := hv ▸ readHostReg_status_bit0 _
  have hcond : evalCond (writeTemp y.host.temps t v) (.bit t 0 true) = y.block.status.busy := by
    rw [evalCond, readTemp_same, hbit, beq_true]
  refine ⟨_, _, hx, hostTurn_ifGoto hif, ?_, ?_, ?_, rfl, rfl⟩
  · exact if_congr (by rw [← hcond]; rfl) rfl rfl
  · exact (congrArg (·.getLsbD 0) (readTemp_same t v _)).trans hbit
  · exact fun u hu => readTemp_other t v u _ hu

end Sys2Proof.Machine
end
